-- ==== Sys2Proof/Machine/Errors.lean ====
section
/-!
DEFINITION. The error taxonomy of R130 to R132: four kinds, ten reasons, the position an error
carries, and the spec's numbering.
-/

namespace Sys2Proof.Machine

/-- The four categories of R130. -/
inductive ErrorKind where
  | formatError
  | validationError
  | addressError
  | executionError
  deriving DecidableEq, Repr

/-- The reasons of a FormatError (R131). -/
inductive FormatReason where
  /-- 1.1: blob length not a multiple of 3 (R74). -/
  | streamLength
  /-- 1.2: initial-memory description of unrecognised shape or with a bad value (R152, R154). -/
  | initMemory
  /-- 1.3: malformed instruction-list input (R78). -/
  | instructionList
  /-- 1.4: snapshot `end < start` (R58). -/
  | snapshotRange
  deriving DecidableEq, Repr

/-- The reasons of a ValidationError (R131). -/
inductive ValidationReason where
  /-- 2.1: normalised token not in the alias table (R80). -/
  | unknownMnemonic
  /-- 2.2: operand outside its opcode's range, in the assembler (R81) or in the engine (R71). -/
  | operandRange
  deriving DecidableEq, Repr

/-- The reason of an AddressError (R131). -/
inductive AddressReason where
  /-- 3.1: negative or over-ceiling address (R42, R58, R154), or `INIT_MEM_SIZE > MEM_CEILING`. -/
  | outOfRange
  deriving DecidableEq, Repr

/-- The reasons of an ExecutionError (R131). -/
inductive ExecutionReason where
  /-- 4.1: `A` in {0, 1, 4, 5} (R70). -/
  | unknownOpcode
  /-- 4.2: fewer values on the stack than the instruction needs (R104, R105). -/
  | stackUnderflow
  /-- 4.3: a push at full depth, only with a finite `STACK_CAPACITY` (R111). -/
  | stackOverflow
  deriving DecidableEq, Repr

/-- A kind together with one of its reasons, written as the spec writes it: `<Kind>(<Reason>)`
(log 9). -/
inductive ErrorCause where
  | format (r : FormatReason)
  | validation (r : ValidationReason)
  | address (r : AddressReason)
  | execution (r : ExecutionReason)
  deriving DecidableEq, Repr

/-- The kind of a cause (R130). -/
def ErrorCause.kind : ErrorCause → ErrorKind
  | .format _ => .formatError
  | .validation _ => .validationError
  | .address _ => .addressError
  | .execution _ => .executionError

/-- The code column of R131, `k.r` as the pair `(k, r)`. -/
def ErrorCause.code : ErrorCause → Nat × Nat
  | .format .streamLength => (1, 1)
  | .format .initMemory => (1, 2)
  | .format .instructionList => (1, 3)
  | .format .snapshotRange => (1, 4)
  | .validation .unknownMnemonic => (2, 1)
  | .validation .operandRange => (2, 2)
  | .address .outOfRange => (3, 1)
  | .execution .unknownOpcode => (4, 1)
  | .execution .stackUnderflow => (4, 2)
  | .execution .stackOverflow => (4, 3)

/-- The position an error carries (R131, R132). -/
inductive Position where
  | none
  | record (index : Nat)
  | pc (index : Nat)
  deriving DecidableEq, Repr

/-- What an error records, and nothing more (R132). -/
structure ErrorReport where
  cause : ErrorCause
  position : Position
  deriving DecidableEq, Repr

end Sys2Proof.Machine
end

