-- ==== Sys2Proof/Word.lean ====
section
/-!
DEFINITION. The widths of the machine (R8, R15): stack values and memory cells, bytes, the 24-bit
instruction word and its two fields.
-/

namespace Sys2Proof

/-- `Word32` of R15: a stack value or a memory cell, unsigned, arithmetic modulo `2^32` (R8). -/
abbrev Word := BitVec 32

/-- `Byte` of R15. -/
abbrev Byte := BitVec 8

/-- `Word24` of R15: the instruction word (R60). -/
abbrev Word24 := BitVec 24

/-- The opcode field `A = word[2:0]` (R61). -/
abbrev OpcodeField := BitVec 3

/-- The operand field `B = word[23:3]`, unsigned (R61, R68). -/
abbrev Operand := BitVec 21

/-- An instruction of a program as the spec holds it (R20, R65): the pair `(A, B)`, with `A` in
`0..7` and `B` in `0..2^21-1`. Four values of `A` spell no instruction (R70). -/
structure Pair where
  a : OpcodeField
  b : Operand
  deriving DecidableEq, Repr

end Sys2Proof
end

