-- ==== Sys2Proof/Syntax.lean ====
section
/-!
DEFINITION. The instructions: one constructor per row of spec/opcode_table.json, each with the whole
21-bit operand field (R61, R69). Legal operand ranges are WellFormed's (R67).
-/

namespace Sys2Proof

/-- The four instructions of R2 and R69. -/
inductive Instr where
  /-- LOADC (R102): `b` is the immediate. -/
  | loadc (b : Operand)
  /-- LOAD (R103): `b` is the absolute address. -/
  | load (b : Operand)
  /-- STORE (R104): `b` is the offset added to the popped base. -/
  | store (b : Operand)
  /-- SHL (R105): `b` is the offset added to the top of the stack. -/
  | shl (b : Operand)
  deriving DecidableEq, Repr

end Sys2Proof
end

