-- ==== Sys2Proof/Decode.lean ====
section
/-!
DEFINITION. The decoder of R65, total on every byte triple; the opcode map of R69, which rejects the
four illegal opcodes by name; the stream decoder of R74 to R76; and, after them, the encoder of R60
to R64.
-/

namespace Sys2Proof

open Sys2Proof.Machine (ErrorCause)

/-! ### Decoder -/

/-- R62: `word = byte0 | (byte1 << 8) | (byte2 << 16)`. -/
def wordOfBytes (b0 b1 b2 : Byte) : Word24 :=
  b0.setWidth 24 ||| (b1.setWidth 24 <<< 8) ||| (b2.setWidth 24 <<< 16)

/-- R61: `A = word[2:0]`, `B = word[23:3]`. -/
def pairOfWord (w : Word24) : Pair :=
  { a := w.extractLsb' 0 3, b := w.extractLsb' 3 21 }

/-- R65: total over all byte triples, no validity check. -/
def decode (b0 b1 b2 : Byte) : Pair :=
  pairOfWord (wordOfBytes b0 b1 b2)

/-- Why a pair spells no instruction. -/
inductive DecodeReject where
  /-- `a` is none of 2, 3, 6, 7 (R70). -/
  | unknownOpcode (a : OpcodeField)
  deriving DecidableEq, Repr

/-- The opcode map of R69: the opcode alone selects the instruction, and R70 names the rest. -/
def Pair.toInstr (p : Pair) : Except DecodeReject Instr :=
  match p.a with
  | 0b111#3 => .ok (.loadc p.b)
  | 0b010#3 => .ok (.load p.b)
  | 0b011#3 => .ok (.store p.b)
  | 0b110#3 => .ok (.shl p.b)
  | a => .error (.unknownOpcode a)

/-- The instruction a byte triple spells, or the named rejection of its opcode. -/
def decodeInstr (b0 b1 b2 : Byte) : Except DecodeReject Instr :=
  (decode b0 b1 b2).toInstr

/-- R75: three bytes at a time, in blob order. Bytes left over at the end are dropped here;
`decodeStream` has rejected such a blob before. -/
def decodeWords : List Byte → List Pair
  | b0 :: b1 :: b2 :: rest => decode b0 b1 b2 :: decodeWords rest
  | _ => []

/-- R74: a blob whose length is no multiple of 3 is rejected before anything is decoded; R76: there
is no other check. -/
def decodeStream (blob : List Byte) : Except ErrorCause (List Pair) :=
  if blob.length % 3 = 0 then .ok (decodeWords blob) else .error (.format .streamLength)

/-- The host's probe: the instruction read from a word numbered as spec/opcode_table.json numbers
it, the bits above `nbits` zero, laid out little-endian (R62). -/
def decodeTableWord (nbits w : Nat) : Option Instr :=
  let v := w % 2 ^ nbits
  match decodeInstr (BitVec.ofNat 8 v) (BitVec.ofNat 8 (v / 2 ^ 8)) (BitVec.ofNat 8 (v / 2 ^ 16)) with
  | .ok i => some i
  | .error _ => none

/-! ### Encoder -/

/-- R60: `word = (B << 3) | A`. -/
def wordOfPair (p : Pair) : Word24 :=
  (p.b.setWidth 24 <<< 3) ||| p.a.setWidth 24

/-- R62: byte `k` of the word, `word[8k+7:8k]`. -/
def byteOfWord (k : Nat) (w : Word24) : Byte :=
  w.extractLsb' (8 * k) 8

/-- R62, R64: the three bytes of a pair, least significant first. -/
def encodePair (p : Pair) : List Byte :=
  [byteOfWord 0 (wordOfPair p), byteOfWord 1 (wordOfPair p), byteOfWord 2 (wordOfPair p)]

/-- R64: the host's `encode(A, B)`; outside the field widths it refuses and returns no bytes (D20).
It does not check the per-opcode ranges of R67. -/
def encodeFields (a b : Nat) : Option (List Byte) :=
  if a ≤ 7 ∧ b ≤ 2 ^ 21 - 1 then some (encodePair { a := BitVec.ofNat 3 a, b := BitVec.ofNat 21 b })
  else none

/-- The pair of an instruction: R69 read the other way. -/
def Instr.toPair : Instr → Pair
  | .loadc b => { a := 0b111#3, b := b }
  | .load b => { a := 0b010#3, b := b }
  | .store b => { a := 0b011#3, b := b }
  | .shl b => { a := 0b110#3, b := b }

/-- The three bytes of an instruction (R60 to R64, R69). -/
def encode (i : Instr) : List Byte :=
  encodePair i.toPair

/-- The blob of a program: its words in order, no header, no trailer (R77). -/
def encodeProgram (ps : List Pair) : List Byte :=
  ps.flatMap encodePair

end Sys2Proof
end

