-- ==== Sys2Proof/Machine/Flags.lean ====
section
/-!
DEFINITION. The engine has no flags: no instruction sets or reads one, and bits shifted out or
carried out are lost without trace (R26). What other machines pair with flags, the arithmetic of a
result, is here only SHL's (R106, R107).
-/

namespace Sys2Proof.Machine

/-- R105: `shift = m & 0x1F`, so in `0..31`. -/
def shiftAmount (m : Word) : Nat :=
  (m &&& 0x1F#32).toNat

/-- R105, R107: `(x << shift) mod 2^32`, `m` being the memory cell that holds the amount. -/
def shiftLeft (x m : Word) : Word :=
  x <<< shiftAmount m

end Sys2Proof.Machine
end

