-- ==== Sys2Proof/Config.lean ====
section
/-!
DEFINITION. What an implementation fixes: the parameters of R9 to R13 with their defaults, and the
choices the spec leaves open, each a constant without a body (log 10, 12, 15, 21).
-/

namespace Sys2Proof

/-- The parameters of the block a step depends on. They are fixed for a run (R27); State carries
them, so that every claim is about every value of them (log 1). -/
structure Params where
  /-- `MEM_CEILING` (R9): an address `a` is valid exactly when `a < memCeiling`. -/
  memCeiling : Nat
  /-- `STACK_CAPACITY` (R12, R23): `none` is unbounded. -/
  stackCapacity : Option Nat
  /-- `EXEC_OPERAND_CHECK` (R13, R101). -/
  execOperandCheck : Bool
  deriving DecidableEq, Repr

/-- The defaults of R9, R12 and R13. -/
def Params.default : Params :=
  { memCeiling := 2500000, stackCapacity := none, execOperandCheck := true }

/-- `INIT_MEM_SIZE`'s default (R10), an input of the host operation `run` (R155). -/
def Config.initMemSizeDefault : Nat := 4096

/-- `SNAPSHOT_RANGE`'s default `[0, 256)` (R11), an input of the host operation `run` (R155). -/
def Config.snapshotRangeDefault : Int × Int := (0, 256)

/-- Free value (log 10): the record index that an assembler error carries when the input is not a
list at all. R131 gives that error a record index and no rule says which. -/
opaque Config.notAListIndex : Nat

/-- Free value (log 12): whether an initial-memory entry whose address AND value are both bad
reports the value's error. R154 names both errors and no rule orders them within one entry. -/
opaque Config.initValueCheckedFirst : Bool

/-- Free value (log 15): whether an empty snapshot range with a negative start is rejected. R58 says
both that `start < 0` is rejected and that an empty range is valid. -/
opaque Config.negativeEmptyRangeRejected : Bool

/-- Free value (log 21): whether a snapshot range with `end < start` AND `start < 0` reports the
negative start. R58 names an error for each and no rule, R135 and R156 included, orders the two. -/
opaque Config.negativeStartCheckedFirst : Bool

end Sys2Proof
end

