-- ==== Sys2Proof/Machine/Operands.lean ====
section
/-!
DEFINITION. Operand forms (R67, R68) and addressing modes (R112).
-/

namespace Sys2Proof.Machine

/-- R68: `zext_32(B)`; never sign-extended, scaled or shifted. -/
def zext32 (b : Operand) : Word :=
  b.setWidth 32

/-- R67: the 16-bit range `0 .. 65535` of LOADC, STORE and SHL. -/
def operandFits16 (b : Operand) : Bool :=
  decide (b.toNat ≤ 65535)

/-- R71, R101: the range check of the engine for LOADC, STORE and SHL, under
`EXEC_OPERAND_CHECK`. LOAD has none, since every value of its field is legal. -/
def operandRejected (p : Params) (b : Operand) : Bool :=
  p.execOperandCheck && !operandFits16 b

/-- R112, absolute: LOAD's effective address `B`. -/
def absoluteAddress (b : Operand) : Nat :=
  b.toNat

/-- R112, base plus offset: the effective address `(base + zext_32(B)) mod 2^32` of STORE and SHL
(R104, R105), as a cell address. -/
def offsetAddress (base : Word) (b : Operand) : Nat :=
  (base + zext32 b).toNat

end Sys2Proof.Machine
end

