-- ==== Sys2Proof/Machine/State.lean ====
section
/-!
DEFINITION. The state of the execution engine (R20), as plain data; the two ways a step can have no
next state; the state at the start of a run (R31).
-/

namespace Sys2Proof.Machine

/-- One listed cell of data memory: its address and its 32-bit value (R41; log 5). -/
abbrev Cell := Nat × Word

/-- Data memory `M` (R28, R41): cells at strictly rising addresses, none of them 0 and none at or
beyond `len`; a cell that is not listed reads 0 (R31, R42). `len` is `len(M)`, hidden state. -/
structure Memory where
  cells : List Cell
  len : Nat
  deriving DecidableEq, Repr

/-- `status` of R29. `Faulted(kind, reason, pc)` holds kind and reason as one cause (log 9). -/
inductive Status where
  | running
  | halted
  | faulted (cause : ErrorCause) (pc : Nat)
  deriving DecidableEq, Repr

/-- The state of R20 together with the parameters of the step (R27; log 1). -/
structure State where
  /-- `P` (R20, R30): read by the run, never written. -/
  program : List Pair
  /-- `pc` (R25): the index of the next instruction, unbounded (R14). -/
  pc : Nat
  /-- `S` (R22), bottom first (R16, R24). -/
  stack : List Word
  /-- `M` (R28). -/
  mem : Memory
  /-- `status` (R29). -/
  status : Status
  /-- The model's own field (log 1): the parameters of R9, R12 and R13, which no step changes. -/
  params : Params
  deriving DecidableEq, Repr

/-- Why a step has no next state although no instruction is refused. The spec's own errors are no
faults of this type: they are next states whose status is `faulted` (R133; log 2). -/
inductive Fault where
  /-- Raised by `step` when `status` is `halted` or `faulted`: "no step is enabled from them" (R29,
  R100, R143). Safe: the machine has no further behaviour (log 3). -/
  | noStepEnabled
  /-- Raised by `step` when the pc is greater than the program's length, where R100 and R101 give no
  step and which no run reaches (R25). Safe: it stops (log 4). -/
  | pcBeyondProgram
  deriving DecidableEq, Repr

/-- Why the model gives an instruction no meaning. -/
inductive Refusal where
  /-- Raised by an arm of `exec` whose instruction has no meaning yet. Every instruction has one, so
  nothing raises it. Safe: it stops. -/
  | notModelled (mnemonic : String)
  deriving DecidableEq, Repr

/-- The start of a run (R31, R150) with the defaults of R9 to R13, no blob and no initial-memory
description: the program decoded from no blob is the empty one (R75; log 6). -/
def State.reset : State :=
  { program := []
    pc := 0
    stack := []
    mem := { cells := [], len := Config.initMemSizeDefault }
    status := .running
    params := Params.default }

end Sys2Proof.Machine
end

