-- ==== Sys2Proof/Machine/Ops.lean ====
section
/-!
DEFINITION. The named operations of R16 over memory and the stack, fault entry (R133), the halting
transition (R100) and the fetch (R101). The engine has no return from a fault (R136).
-/

namespace Sys2Proof.Machine

/-! ### Data memory -/

/-- The value listed for an address; an address that is not listed reads 0 (R31, R42). -/
def lookupCell : List Cell → Nat → Word
  | [], _ => 0
  | (b, w) :: rest, a => if a = b then w else lookupCell rest a

/-- The list without the address. -/
def eraseCell : List Cell → Nat → List Cell
  | [], _ => []
  | (b, w) :: rest, a => if a = b then eraseCell rest a else (b, w) :: eraseCell rest a

/-- The list with one more cell, put before the first greater address. -/
def insertCell : List Cell → Nat → Word → List Cell
  | [], a, v => [(a, v)]
  | (b, w) :: rest, a, v => if a < b then (a, v) :: (b, w) :: rest else (b, w) :: insertCell rest a v

/-- The list after a write: writing 0, what an unlisted address reads as, removes the entry. -/
def writeCell (l : List Cell) (a : Nat) (v : Word) : List Cell :=
  if v = 0 then eraseCell l a else insertCell (eraseCell l a) a v

/-- The canonical form: addresses strictly rise, no cell is 0, none lies at or beyond `len`. -/
abbrev Memory.wf (m : Memory) : Prop :=
  m.cells.Pairwise (fun c d => c.1 < d.1) ∧ ∀ c ∈ m.cells, c.2 ≠ 0 ∧ c.1 < m.len

/-- `M[a]`: the value of a cell. -/
def Memory.read (m : Memory) (a : Nat) : Word :=
  lookupCell m.cells a

/-- R42's growth: `M` extended with zero cells to length `a + 1` where `a >= len(M)`. -/
def Memory.grow (m : Memory) (a : Nat) : Memory :=
  if m.len ≤ a then { m with len := a + 1 } else m

/-- `Ensure(a)` of R42: nothing at or above the ceiling (the caller raises AddressError), else the
memory grown to cover `a`. -/
def Memory.ensure (ceiling : Nat) (m : Memory) (a : Nat) : Option Memory :=
  if a < ceiling then some (m.grow a) else none

/-- `M[a] <- v`, for a cell that `Ensure` has made. -/
def Memory.put (m : Memory) (a : Nat) (v : Word) : Memory :=
  { m with cells := writeCell m.cells a v }

/-- `MemRead(a, 1)` of R16: `Ensure(a)`, then `M[a]`. -/
def Memory.load (ceiling : Nat) (m : Memory) (a : Nat) : Option (Word × Memory) :=
  match m.ensure ceiling a with
  | none => none
  | some m' => some (m'.read a, m')

/-- `MemWrite(a, 1, v)` of R16: `Ensure(a)`, then `M[a] <- v`. -/
def Memory.store (ceiling : Nat) (m : Memory) (a : Nat) (v : Word) : Option Memory :=
  match m.ensure ceiling a with
  | none => none
  | some m' => some (m'.put a v)

/-! ### The evaluation stack -/

/-- `Push(v)` of R16: `S <- S ++ [v]`. -/
def push (v : Word) (s : State) : State :=
  { s with stack := s.stack ++ [v] }

/-- What `Pop()` of R16 removes: the last element. -/
def pop (s : State) : State :=
  { s with stack := s.stack.dropLast }

/-- `Top(S)`, `S[len(S)-1]`; used only after the stack precondition has been checked. -/
def top (s : State) : Word :=
  s.stack.getLastD 0

/-- `S[len(S)-2]`; used only after the stack precondition has been checked. -/
def second (s : State) : Word :=
  s.stack.dropLast.getLastD 0

/-- R104, R105: fewer than `n` values are on the stack. -/
def stackBelow (n : Nat) (s : State) : Bool :=
  decide (s.stack.length < n)

/-- R23, R111: one more push would make the depth exceed a finite `STACK_CAPACITY` (log 8). -/
def stackFull (s : State) : Bool :=
  match s.params.stackCapacity with
  | none => false
  | some c => decide (c ≤ s.stack.length)

/-! ### Fault entry, completion, halting, fetch -/

/-- Fault entry, `raise <Kind>(reason, pc)` of R16 and R133: the run ends in
`Faulted(kind, reason, pc)`; the pc keeps the faulting instruction's index, and the stack and memory
are as they were. A next state (log 2). -/
def raise (c : ErrorCause) (s : State) : Host.Outcome State Fault Refusal :=
  .next { s with status := .faulted c s.pc }

/-- R101: `pc <- pc + 1`, the end of every instruction that succeeds. -/
def retire (s : State) : Host.Outcome State Fault Refusal :=
  .next { s with pc := s.pc + 1 }

/-- R100: the halting transition, which changes `status` alone. -/
def halt (s : State) : Host.Outcome State Fault Refusal :=
  .next { s with status := .halted }

/-- R101: `P[pc]`. -/
def fetch (s : State) : Option Pair :=
  s.program[s.pc]?

end Sys2Proof.Machine
end

