-- ==== Sys2Proof/Machine/StackOps.lean ====
section
/-!
DEFINITION. The four instructions (R102 to R105). Each checks in the order of R101 and R135:
operand range, stack underflow, stack overflow, address; then has its effect. The status is the
step's to test (log 19).
-/

namespace Sys2Proof.Machine

/-- R102, LOADC: push `zext_32(B)`. -/
def execLoadc (b : Operand) (s : State) : Host.Outcome State Fault Refusal :=
  if operandRejected s.params b then raise (.validation .operandRange) s
  else if stackFull s then raise (.execution .stackOverflow) s
  else retire (push (zext32 b) s)

/-- R103, LOAD: push `M[B]`, growing memory to cover `B`. -/
def execLoad (b : Operand) (s : State) : Host.Outcome State Fault Refusal :=
  if stackFull s then raise (.execution .stackOverflow) s
  else
    match s.mem.load s.params.memCeiling (absoluteAddress b) with
    | none => raise (.address .outOfRange) s
    | some (v, m) => retire (push v { s with mem := m })

/-- R104, STORE: pop `base`, pop `value`, `M[(base + B) mod 2^32] <- value`. -/
def execStore (b : Operand) (s : State) : Host.Outcome State Fault Refusal :=
  if operandRejected s.params b then raise (.validation .operandRange) s
  else if stackBelow 2 s then raise (.execution .stackUnderflow) s
  else
    match s.mem.store s.params.memCeiling (offsetAddress (top s) b) (second s) with
    | none => raise (.address .outOfRange) s
    | some m => retire (pop (pop { s with mem := m }))

/-- R105, SHL: pop `x`, push `x` shifted left by the low 5 bits of `M[(x + B) mod 2^32]`. -/
def execShl (b : Operand) (s : State) : Host.Outcome State Fault Refusal :=
  if operandRejected s.params b then raise (.validation .operandRange) s
  else if stackBelow 1 s then raise (.execution .stackUnderflow) s
  else
    match s.mem.load s.params.memCeiling (offsetAddress (top s) b) with
    | none => raise (.address .outOfRange) s
    | some (v, m) => retire (push (shiftLeft (top s) v) (pop { s with mem := m }))

end Sys2Proof.Machine
end

