-- ==== Sys2Proof/Machine/Dispatch.lean ====
section
/-! DEFINITION. R101's dispatch: one arm per instruction, each one call of its meaning. -/

namespace Sys2Proof.Machine

def exec (i : Instr) (s : State) : Host.Outcome State Fault Refusal :=
  match i with
  | .loadc b => Sys2Proof.Machine.execLoadc b s
  | .load b => Sys2Proof.Machine.execLoad b s
  | .store b => Sys2Proof.Machine.execStore b s
  | .shl b => Sys2Proof.Machine.execShl b s

end Sys2Proof.Machine
end

