-- ==== Sys2Proof/Machine/Step.lean ====
section
/-!
DEFINITION. One step (R100, R101), and the placing of one instruction where the next step fetches.
-/

namespace Sys2Proof.Machine

/-- R100, R101: no step from a terminal status (log 3); the halting transition at the end of the
program; else fetch, the opcode check, and the instruction. A pc past the end has no step (log 4). -/
def step (s : State) : Host.Outcome State Fault Refusal :=
  match s.status with
  | .halted => .fault .noStepEnabled
  | .faulted _ _ => .fault .noStepEnabled
  | .running =>
    if s.pc = s.program.length then halt s
    else
      match fetch s with
      | none => .fault .pcBeyondProgram
      | some p =>
        match p.toInstr with
        | .error _ => raise (.execution .unknownOpcode) s
        | .ok i => exec i s

/-- `s` with the instruction of a table word at the index the pc holds, and running (log 7). The
engine fetches from its decoded program, so that is what is set: the program's earlier and later
instructions stay, and an index the program does not reach is filled up with the pair (0, 0). -/
def State.withFetchWord (s : State) (nbits w : Nat) : State :=
  let v := w % 2 ^ nbits
  let p := decode (BitVec.ofNat 8 v) (BitVec.ofNat 8 (v / 2 ^ 8)) (BitVec.ofNat 8 (v / 2 ^ 16))
  { s with
    program := s.program.take s.pc ++ List.replicate (s.pc - s.program.length) { a := 0, b := 0 } ++
      p :: s.program.drop (s.pc + 1)
    status := .running }

end Sys2Proof.Machine
end

