-- ==== Sys2Proof/Machine/HostData.lean ====
section
/-!
DEFINITION. The abstract inputs and outputs of the host operations (R6, R78, R152, R155): what the
excluded text layer hands over and receives (log 20).
-/

namespace Sys2Proof.Machine

/-- A value where an integer is wanted (R81, R152, R154). -/
inductive HostValue where
  | int (v : Int)
  | notInteger
  deriving DecidableEq, Repr

/-- Operation-name text (R78), as its characters (log 20). -/
abbrev Token := List Char

/-- An element of the assembler's input list (R78): a record with an operation name and an operand,
each present or not, or no record at all. -/
inductive Element where
  | notRecord
  | record (token : Option Token) (operand : Option HostValue)
  deriving DecidableEq, Repr

/-- The assembler's input (R78). -/
inductive InstructionList where
  | notList
  | list (elements : List Element)
  deriving DecidableEq, Repr

/-- One line of the assembler's trace (R83), as data: "opcode, operand, and the three emitted byte
values" (log 17). -/
structure TraceEntry where
  opcode : OpcodeField
  operand : Operand
  bytes : List Byte
  deriving DecidableEq, Repr

/-- The initial-memory description of R152: the two shapes, and every other one. -/
inductive InitMemory where
  /-- `{start, values: [v0, v1, ...]}`; `start` may be missing (D12). -/
  | block (start : Option HostValue) (values : List HostValue)
  /-- `{values: {addr: value, ...}}`, in the description's own order. -/
  | sparse (entries : List (HostValue × HostValue))
  | unrecognised
  deriving DecidableEq, Repr

/-- The input of `run` (R155): blob, optional initial memory, `INIT_MEM_SIZE` and snapshot range. -/
structure RunInput where
  blob : List Byte
  initMemory : Option InitMemory := none
  initMemSize : Nat := Config.initMemSizeDefault
  snapshotRange : Int × Int := Config.snapshotRangeDefault
  deriving DecidableEq, Repr

/-- The output of `run` (R56, R155, R156). -/
inductive RunResult where
  /-- The final stack, bottom first (R24), the requested range and its pairs `(a, M[a])` (R56). -/
  | finished (stack : List Word) (range : Int × Int) (snapshot : List (Nat × Word))
  /-- One categorised error, and nothing else (R133, R156). -/
  | error (report : ErrorReport)
  /-- The step bound of `runToEnd` ran out; by R110 it never does (log 16). -/
  | unfinished
  deriving DecidableEq, Repr

end Sys2Proof.Machine
end

