-- ==== Sys2Proof/Machine/Assembler.lean ====
section
/-!
DEFINITION. The assembler (R77 to R83): token normalisation, the alias table, operand validation,
and the blob, all or nothing.
-/

namespace Sys2Proof.Machine

/-- The four opcodes the assembler can emit (R80). -/
inductive Mnemonic where
  | loadc
  | load
  | store
  | shl
  deriving DecidableEq, Repr

/-- R80: the opcode of a mnemonic. -/
def mnemonicOpcode : Mnemonic → OpcodeField
  | .loadc => 7
  | .load => 2
  | .store => 3
  | .shl => 6

/-- R67: the largest legal operand of a mnemonic. -/
def mnemonicOperandMax : Mnemonic → Nat
  | .loadc => 65535
  | .load => 2097151
  | .store => 65535
  | .shl => 65535

/-- R79: one lowercase ASCII letter becomes its uppercase form; any other character stays. -/
def upperAscii (c : Char) : Char :=
  if 97 ≤ c.toNat ∧ c.toNat ≤ 122 then Char.ofNat (c.toNat - 32) else c

/-- R79: uppercase, every `-` and `_` removed, nothing else changed. -/
def normaliseToken (t : Token) : Token :=
  (t.filter fun c => c != '-' && c != '_').map upperAscii

/-- R80: the aliases of each mnemonic. -/
def aliasTable : List (Token × Mnemonic) :=
  [("LOADC".toList, .loadc), ("LC".toList, .loadc), ("PUSH".toList, .loadc),
   ("LOAD".toList, .load), ("READ".toList, .load), ("LD".toList, .load),
   ("STORE".toList, .store), ("WRITE".toList, .store), ("ST".toList, .store),
   ("SHL".toList, .shl), ("SHIFTLEFT".toList, .shl)]

/-- R80, R84: the canonical mnemonic of an opcode. -/
def canonicalName : Mnemonic → Token
  | .loadc => "LOADC".toList
  | .load => "LOAD".toList
  | .store => "STORE".toList
  | .shl => "SHL".toList

/-- R80: the mnemonic a token selects, by the table and by nothing else. -/
def mnemonicOfToken (t : Token) : Option Mnemonic :=
  aliasTable.lookup (normaliseToken t)

/-- R81: the operand is an integer in the range of R67; nothing is truncated. -/
def checkOperand (m : Mnemonic) : HostValue → Except ErrorCause Operand
  | .int v =>
    if 0 ≤ v ∧ v ≤ mnemonicOperandMax m then .ok (BitVec.ofNat 21 v.toNat)
    else .error (.validation .operandRange)
  | .notInteger => .error (.validation .operandRange)

/-- One element: record and operation name (R78), then the token (R80), then the operand (R81),
0 when there is none. -/
def assembleElement : Element → Except ErrorCause Pair
  | .notRecord => .error (.format .instructionList)
  | .record none _ => .error (.format .instructionList)
  | .record (some t) operand =>
    match mnemonicOfToken t with
    | none => .error (.validation .unknownMnemonic)
    | some m =>
      match checkOperand m (operand.getD (.int 0)) with
      | .error c => .error c
      | .ok b => .ok { a := mnemonicOpcode m, b := b }

/-- R82: in input order from index `i`, the first failing element being the one reported (log 11). -/
def assembleFrom (i : Nat) : List Element → Except ErrorReport (List Pair)
  | [] => .ok []
  | e :: es =>
    match assembleElement e with
    | .error c => .error { cause := c, position := .record i }
    | .ok p =>
      match assembleFrom (i + 1) es with
      | .error r => .error r
      | .ok ps => .ok (p :: ps)

/-- The validated pairs of an input; R131 gives "not a list" a record index that no rule fixes
(log 10). -/
def assemblePairs : InstructionList → Except ErrorReport (List Pair)
  | .notList =>
    .error { cause := .format .instructionList, position := .record Config.notAListIndex }
  | .list es => assembleFrom 0 es

/-- The host operation `assemble` (R77, R82, R155): the blob, or one error and no bytes. -/
def assemble (input : InstructionList) : Except ErrorReport (List Byte) :=
  match assemblePairs input with
  | .error r => .error r
  | .ok ps => .ok (encodeProgram ps)

/-- R83: the optional trace's data. It leaves the blob as it is (log 17). -/
def assembleTrace (input : InstructionList) : Except ErrorReport (List TraceEntry) :=
  match assemblePairs input with
  | .error r => .error r
  | .ok ps => .ok (ps.map fun p => { opcode := p.a, operand := p.b, bytes := encodePair p })

end Sys2Proof.Machine
end

