-- ==== Sys2Proof/Machine/HostInterface.lean ====
section
/-!
DEFINITION. The host operation `run` (R155, R156): boot, steps to the end, snapshot. The other host
operations are `encodeFields` and `decode` (Decode.lean) and `assemble` (Assembler.lean).
-/

namespace Sys2Proof.Machine

/-! ### Initial memory (R151 to R154) -/

/-- R154: the address of an entry. A non-integer is a malformed description (log 13). -/
def initAddress (ceiling : Nat) : HostValue → Except ErrorCause Nat
  | .int v => if 0 ≤ v ∧ v < ceiling then .ok v.toNat else .error (.address .outOfRange)
  | .notInteger => .error (.format .initMemory)

/-- R154: the value of an entry, an integer in `0 .. 2^32 - 1` (D9). -/
def initValue : HostValue → Except ErrorCause Word
  | .int v => if 0 ≤ v ∧ v < 2 ^ 32 then .ok (BitVec.ofNat 32 v.toNat) else .error (.format .initMemory)
  | .notInteger => .error (.format .initMemory)

/-- R152 to R154: one entry, validated, then stored with growth. Which error an entry with a bad
address and a bad value reports is free (log 12). -/
def applyEntry (ceiling : Nat) (m : Memory) (e : HostValue × HostValue) : Except ErrorCause Memory :=
  match initAddress ceiling e.1, initValue e.2 with
  | .ok a, .ok v => .ok ((m.grow a).put a v)
  | .error c, .ok _ => .error c
  | .ok _, .error d => .error d
  | .error c, .error d => .error (if Config.initValueCheckedFirst then d else c)

/-- The entries in the description's own order, up to the first error (R156; log 14). -/
def applyEntries (ceiling : Nat) (m : Memory) : List (HostValue × HostValue) → Except ErrorCause Memory
  | [] => .ok m
  | e :: es =>
    match applyEntry ceiling m e with
    | .error c => .error c
    | .ok m' => applyEntries ceiling m' es

/-- R152: the entries `(start + i, v_i)` of a block. -/
def blockEntries (start : Int) : List HostValue → List (HostValue × HostValue)
  | [] => []
  | v :: vs => (.int start, v) :: blockEntries (start + 1) vs

/-- R152: the entries of a description, or FormatError(InitMemory) for a shape that is none of the
two, a block without `start` among them (D12; log 13). -/
def initEntries : InitMemory → Except ErrorCause (List (HostValue × HostValue))
  | .block (some (.int start)) vs => .ok (blockEntries start vs)
  | .block (some .notInteger) _ => .error (.format .initMemory)
  | .block none _ => .error (.format .initMemory)
  | .sparse es => .ok es
  | .unrecognised => .error (.format .initMemory)

/-- R151 to R154: the memory a run starts with, of `size` zero cells before the description. -/
def initialMemory (ceiling size : Nat) : Option InitMemory → Except ErrorCause Memory
  | none => .ok { cells := [], len := size }
  | some d =>
    match initEntries d with
    | .error c => .error c
    | .ok es => applyEntries ceiling { cells := [], len := size } es

/-! ### Boot, run, snapshot -/

/-- Steps 1 to 3 of R156 and the start state of R31: the first error is the only result. -/
def boot (p : Params) (input : RunInput) : Except ErrorCause State :=
  if p.memCeiling < input.initMemSize then .error (.address .outOfRange)
  else
    match decodeStream input.blob with
    | .error c => .error c
    | .ok program =>
      match initialMemory p.memCeiling input.initMemSize input.initMemory with
      | .error c => .error c
      | .ok m =>
        .ok { program := program, pc := 0, stack := [], mem := m, status := .running, params := p }

/-- At most `n` steps, stopping where no step is enabled. -/
def steps : Nat → State → State
  | 0, s => s
  | n + 1, s =>
    match step s with
    | .next t => steps n t
    | .fault _ => s
    | .refused _ => s

/-- Step 4 of R156. By R110 a run is over after one step per instruction and the halting
transition, so that many are taken (log 16). -/
def runToEnd (s : State) : State :=
  steps (s.program.length + 1) s

/-- R56 to R58: the snapshot of `[start, stop)`, with the state whose memory it has grown. Two points
of R58 are open and stay free: which error a range with `stop < start` and `start < 0` reports
(log 21), and whether an empty range with `start < 0` is rejected (log 15). -/
def takeSnapshot (s : State) (range : Int × Int) : Except ErrorCause (State × List (Nat × Word)) :=
  if range.2 < range.1 then
    .error (if range.1 < 0 ∧ Config.negativeStartCheckedFirst = true then .address .outOfRange
      else .format .snapshotRange)
  else if range.1 < 0 ∧ (range.1 < range.2 ∨ Config.negativeEmptyRangeRejected = true) then
    .error (.address .outOfRange)
  else if range.1 = range.2 then .ok (s, [])
  else
    match s.mem.ensure s.params.memCeiling (range.2 - 1).toNat with
    | none => .error (.address .outOfRange)
    | some m =>
      .ok ({ s with mem := m },
        (List.range' range.1.toNat (range.2 - range.1).toNat).map fun a => (a, m.read a))

/-- Step 5 of R156: a halted run gives its stack and snapshot, a faulted run its fault only. -/
def runResult (s : State) (range : Int × Int) : RunResult :=
  match s.status with
  | .halted =>
    match takeSnapshot s range with
    | .error c => .error { cause := c, position := .none }
    | .ok (t, cells) => .finished t.stack range cells
  | .faulted c pc => .error { cause := c, position := .pc pc }
  | .running => .unfinished

/-- The host operation `run` (R155, R156). -/
def run (p : Params) (input : RunInput) : RunResult :=
  match boot p input with
  | .error c => .error { cause := c, position := .none }
  | .ok s => runResult (runToEnd s) input.snapshotRange

end Sys2Proof.Machine
end

