-- ==== Sys2Proof/WellFormed.lean ====
section
/-!
DEFINITION. Well-formed instructions: the operand lies in its opcode's legal range (R67). An
ill-formed instruction has an encoding and is decoded; the assembler never emits it (R81) and the
engine raises OperandRange for it unless the check is off (R71).
-/

namespace Sys2Proof

/-- The largest legal operand of R67. -/
def Instr.operandMax : Instr → Nat
  | .loadc _ => 65535
  | .load _ => 2097151
  | .store _ => 65535
  | .shl _ => 65535

/-- The operand field of an instruction. -/
def Instr.operand : Instr → Operand
  | .loadc b => b
  | .load b => b
  | .store b => b
  | .shl b => b

/-- R67: "every instruction's `(A,B)` pair must satisfy its range". -/
def Instr.wellFormed (i : Instr) : Bool :=
  decide (i.operand.toNat ≤ i.operandMax)

end Sys2Proof
end

