-- ==== Sys2Proof/Safety.lean ====
section
/-!
DEFINITION. What claims are stated in: the invariant every run keeps, a program of legal
instructions, a safe run, the good entries of an initial-memory description, the errors of an
instruction in the order of R101, and the machine of R44 whose memory is a total function.
-/

namespace Sys2Proof.Machine

/-! ### Invariant and safe runs -/

/-- The depth never exceeds a finite `STACK_CAPACITY` (R23). -/
def State.stackInBounds (s : State) : Prop :=
  ∀ c, s.params.stackCapacity = some c → s.stack.length ≤ c

/-- A halted state stands at the end of its program (R100), a faulted one at the instruction its
fault names, which lies in the program (R25, R133). -/
def State.statusCoherent (s : State) : Prop :=
  match s.status with
  | .running => True
  | .halted => s.pc = s.program.length
  | .faulted _ pc => pc = s.pc ∧ s.pc < s.program.length

/-- What holds at every point of a run: the memory's canonical form, `len(M) <= MEM_CEILING` (R43),
`pc <= length(P)` (R25), the stack bound (R23), and a coherent status. -/
structure State.Inv (s : State) : Prop where
  memWf : s.mem.wf
  lenBound : s.mem.len ≤ s.params.memCeiling
  pcBound : s.pc ≤ s.program.length
  stackBound : s.stackInBounds
  coherent : s.statusCoherent

/-- A safe run: it does not end in a fault (R29). -/
def State.safe (s : State) : Prop :=
  ∀ c pc, (runToEnd s).status ≠ .faulted c pc

/-- Every instruction of the program is one of the four, with a legal operand (R67, R69). -/
def programLegal (ps : List Pair) : Prop :=
  ∀ p ∈ ps, ∃ i, p.toInstr = .ok i ∧ i.wellFormed = true

/-! ### Initial-memory descriptions -/

/-- R154: an address the description may name. -/
def addressGood (ceiling : Nat) (x : HostValue) : Prop :=
  ∃ a : Int, x = .int a ∧ 0 ≤ a ∧ a < ceiling

/-- R154: an integer that is no valid address. -/
def addressOutside (ceiling : Nat) (x : HostValue) : Prop :=
  ∃ a : Int, x = .int a ∧ (a < 0 ∨ ceiling ≤ a)

/-- R154: a value a cell may hold. -/
def valueGood (y : HostValue) : Prop :=
  ∃ v : Int, y = .int v ∧ 0 ≤ v ∧ v < 2 ^ 32

/-- R154: a value that is not an integer in `0 .. 2^32 - 1`. -/
def valueBad (y : HostValue) : Prop :=
  y = .notInteger ∨ ∃ v : Int, y = .int v ∧ (v < 0 ∨ 2 ^ 32 ≤ v)

/-- Entries that all pass R154. -/
def entriesGood (ceiling : Nat) (es : List (HostValue × HostValue)) : Prop :=
  ∀ e ∈ es, addressGood ceiling e.1 ∧ valueGood e.2

/-! ### The errors of an instruction -/

/-- How many values an instruction needs on the stack (R104, R105). -/
def popCount : Instr → Nat
  | .loadc _ => 0
  | .load _ => 0
  | .store _ => 2
  | .shl _ => 1

/-- The cell an instruction accesses, as a number (R112); LOADC accesses none (R47). -/
def accessedCell (i : Instr) (s : State) : Option Nat :=
  match i with
  | .loadc _ => none
  | .load b => some b.toNat
  | .store b => some (((s.stack.getLastD 0).toNat + b.toNat) % 2 ^ 32)
  | .shl b => some (((s.stack.getLastD 0).toNat + b.toNat) % 2 ^ 32)

/-- R23: a stack of this depth has reached a finite `STACK_CAPACITY`. -/
def capacityReached (p : Params) (depth : Nat) : Bool :=
  match p.stackCapacity with
  | none => false
  | some c => decide (c ≤ depth)

/-- The first error of R101 and R135 that applies to a recognised instruction: operand range, stack
underflow, stack overflow, address. -/
def firstError (i : Instr) (s : State) : Option ErrorCause :=
  if s.params.execOperandCheck && !i.wellFormed then some (.validation .operandRange)
  else if s.stack.length < popCount i then some (.execution .stackUnderflow)
  else if popCount i = 0 && capacityReached s.params s.stack.length then
    some (.execution .stackOverflow)
  else
    match accessedCell i s with
    | none => none
    | some a => if s.params.memCeiling ≤ a then some (.address .outOfRange) else none

/-! ### The equivalent view of R44 -/

/-- R44: the machine whose memory is a total function, zero where nothing was written. It is no
State of the model, only what claims compare it with. Its stack is listed top first. -/
structure FlatState where
  program : List Pair
  pc : Nat
  stack : List Word
  mem : Nat → Word
  status : Status

/-- A state of the model seen as R44 has it: the length of memory is gone. -/
def flatView (s : State) : FlatState :=
  { program := s.program, pc := s.pc, stack := s.stack.reverse, mem := s.mem.read, status := s.status }

/-- Fault entry (R133) in the view of R44. -/
def flatFault (c : ErrorCause) (s : FlatState) : FlatState :=
  { s with status := .faulted c s.pc }

/-- One instruction `(A, B)` in the view of R44, where `Ensure(a)` is the check `a < MEM_CEILING`,
written from R101 to R105 on numbers. -/
def flatExec (p : Params) (a b : Nat) (s : FlatState) : FlatState :=
  if a ≠ 2 ∧ a ≠ 3 ∧ a ≠ 6 ∧ a ≠ 7 then flatFault (.execution .unknownOpcode) s
  else if p.execOperandCheck = true ∧ a ≠ 2 ∧ 65535 < b then flatFault (.validation .operandRange) s
  else if (a = 7 ∨ a = 2) ∧ capacityReached p s.stack.length = true then
    flatFault (.execution .stackOverflow) s
  else if a = 7 then { s with stack := BitVec.ofNat 32 b :: s.stack, pc := s.pc + 1 }
  else if a = 2 then
    if p.memCeiling ≤ b then flatFault (.address .outOfRange) s
    else { s with stack := s.mem b :: s.stack, pc := s.pc + 1 }
  else if a = 3 then
    match s.stack with
    | base :: value :: rest =>
      if p.memCeiling ≤ (base.toNat + b) % 2 ^ 32 then flatFault (.address .outOfRange) s
      else
        { s with
          stack := rest
          mem := fun c => if c = (base.toNat + b) % 2 ^ 32 then value else s.mem c
          pc := s.pc + 1 }
    | _ => flatFault (.execution .stackUnderflow) s
  else
    match s.stack with
    | x :: rest =>
      if p.memCeiling ≤ (x.toNat + b) % 2 ^ 32 then flatFault (.address .outOfRange) s
      else
        { s with
          stack :=
            BitVec.ofNat 32 (x.toNat * 2 ^ ((s.mem ((x.toNat + b) % 2 ^ 32)).toNat % 32)) :: rest
          pc := s.pc + 1 }
    | [] => flatFault (.execution .stackUnderflow) s

/-- One step in the view of R44; `none` where no step is enabled. -/
def flatStep (p : Params) (s : FlatState) : Option FlatState :=
  match s.status with
  | .running =>
    if s.pc = s.program.length then some { s with status := .halted }
    else
      match s.program[s.pc]? with
      | none => none
      | some q => some (flatExec p q.a.toNat q.b.toNat s)
  | .halted => none
  | .faulted _ _ => none

end Sys2Proof.Machine
end

