-- ==== Sys2Proof/Certificates/Slice0/Obligations.lean ====
section
/-!
DEFINITION. The statements for the provers, file by file of spec/. OBLIGATIONS.json lists them.
-/

open Sys2Proof
open Sys2Proof.Machine

/-! ### Encoding (spec/30_encoding.md) -/

/-- Words of spec/95_test_vectors.md 2.1 and 2.2, one or more per instruction and one illegal
opcode, written out as bytes. -/
def Obligations.SpecWordsDecode : Prop :=
  decodeInstr 0x0F#8 0x00#8 0x00#8 = .ok (.loadc 1#21) ∧
  decodeInstr 0xFF#8 0xFF#8 0x07#8 = .ok (.loadc 65535#21) ∧
  decodeInstr 0x12#8 0x34#8 0x56#8 = .ok (.load 706178#21) ∧
  decodeInstr 0xFB#8 0xFF#8 0x07#8 = .ok (.store 65535#21) ∧
  decodeInstr 0xFE#8 0xFF#8 0x07#8 = .ok (.shl 65535#21) ∧
  decodeInstr 0xC5#8 0xA3#8 0x01#8 = .error (.unknownOpcode 5#3)

/-- R65 on numbers: the opcode is the low 3 bits of the little-endian word, the operand the rest. -/
def Obligations.DecodeReadsWordFields : Prop :=
  ∀ b0 b1 b2 : Byte,
    let word := b0.toNat + 2 ^ 8 * b1.toNat + 2 ^ 16 * b2.toNat
    (decode b0 b1 b2).a.toNat = word % 8 ∧ (decode b0 b1 b2).b.toNat = word / 8

/-- R64: `encode(A, B)` refuses exactly outside the field widths, and else gives the three bytes of
`8 * B + A`, least significant first, whatever the opcode's legal range. -/
def Obligations.EncodeIsDefinedOnFieldWidths : Prop :=
  ∀ a b : Nat,
    (encodeFields a b = none ↔ ¬ (a ≤ 7 ∧ b ≤ 2 ^ 21 - 1)) ∧
    (a ≤ 7 → b ≤ 2 ^ 21 - 1 →
      ∃ b0 b1 b2 : Byte, encodeFields a b = some [b0, b1, b2] ∧
        b0.toNat = (8 * b + a) % 2 ^ 8 ∧ b1.toNat = (8 * b + a) / 2 ^ 8 % 2 ^ 8 ∧
        b2.toNat = (8 * b + a) / 2 ^ 16 % 2 ^ 8)

/-- R63: where the fields fall in the bytes, and how they are read back. -/
def Obligations.FieldsFallInBytes : Prop :=
  ∀ p : Pair, ∃ b0 b1 b2 : Byte, encodePair p = [b0, b1, b2] ∧
    b0.extractLsb' 0 3 = p.a ∧ b0.extractLsb' 3 5 = p.b.extractLsb' 0 5 ∧
    b1.extractLsb' 0 3 = p.b.extractLsb' 5 3 ∧ b1.extractLsb' 3 5 = p.b.extractLsb' 8 5 ∧
    b2.extractLsb' 0 3 = p.b.extractLsb' 13 3 ∧ b2.extractLsb' 3 5 = p.b.extractLsb' 16 5 ∧
    p.a.setWidth 8 = b0 &&& 7#8 ∧
    p.b = (b0.setWidth 21 >>> 3) ||| (b1.setWidth 21 <<< 5) ||| (b2.setWidth 21 <<< 13) ∧
    (p.b.toNat ≤ 65535 → b2.toNat ≤ 7)

/-- R66: both round-trip laws, and that `decode` is a bijection. -/
def Obligations.DecodeIsBijectionWithEncode : Prop :=
  (∀ a b : Nat, a ≤ 7 → b ≤ 2 ^ 21 - 1 →
    ∃ b0 b1 b2 : Byte, encodeFields a b = some [b0, b1, b2] ∧
      (decode b0 b1 b2).a.toNat = a ∧ (decode b0 b1 b2).b.toNat = b) ∧
  (∀ b0 b1 b2 : Byte, encodePair (decode b0 b1 b2) = [b0, b1, b2]) ∧
  Function.Bijective (fun t : Byte × Byte × Byte => decode t.1 t.2.1 t.2.2)

/-- Decode and encode agree on whole programs, at every operand of every instruction: a blob of
encoded instructions decodes to those instructions, any blob that decodes is the encoding of what it
decodes to, and no bit is dropped. -/
def Obligations.ProgramsSurviveEncodeAndDecode : Prop :=
  (∀ is : List Instr,
    decodeStream (is.flatMap encode) = .ok (is.map Instr.toPair) ∧
    (is.map Instr.toPair).map Pair.toInstr = is.map .ok) ∧
  (∀ (blob : List Byte) (ps : List Pair), decodeStream blob = .ok ps ↔ blob = encodeProgram ps)

/-- R69, R70: the opcode alone selects the instruction; the four other opcodes select none. -/
def Obligations.OpcodeAloneSelectsInstruction : Prop :=
  ∀ b : Operand,
    (Pair.mk 0#3 b).toInstr = .error (.unknownOpcode 0) ∧
    (Pair.mk 1#3 b).toInstr = .error (.unknownOpcode 1) ∧
    (Pair.mk 2#3 b).toInstr = .ok (.load b) ∧
    (Pair.mk 3#3 b).toInstr = .ok (.store b) ∧
    (Pair.mk 4#3 b).toInstr = .error (.unknownOpcode 4) ∧
    (Pair.mk 5#3 b).toInstr = .error (.unknownOpcode 5) ∧
    (Pair.mk 6#3 b).toInstr = .ok (.shl b) ∧
    (Pair.mk 7#3 b).toInstr = .ok (.loadc b)

/-- R74 to R76: the length check is the only one, and instruction `i` is decoded from bytes
`3i .. 3i+2`. -/
def Obligations.StreamDecodesThreeBytesPerInstruction : Prop :=
  ∀ blob : List Byte,
    (blob.length % 3 ≠ 0 → decodeStream blob = .error (.format .streamLength)) ∧
    (∀ n, blob.length = 3 * n → ∃ ps, decodeStream blob = .ok ps ∧ ps.length = n ∧
      ∀ (i : Nat) (b0 b1 b2 : Byte), blob[3 * i]? = some b0 → blob[3 * i + 1]? = some b1 →
        blob[3 * i + 2]? = some b2 → ps[i]? = some (decode b0 b1 b2))

/-! ### Assembler (spec/30_encoding.md section 6) -/

/-- R79: a normalised token has no lowercase ASCII letter, no `-` and no `_`; a token without them
is left as it is, white space included; and what is removed or uppercased does not matter. -/
def Obligations.TokenNormalisationIsCaseAndSeparatorBlind : Prop :=
  (∀ t : Token, ∀ c ∈ normaliseToken t, c ≠ '-' ∧ c ≠ '_' ∧ ¬ (97 ≤ c.toNat ∧ c.toNat ≤ 122)) ∧
  (∀ t : Token, (∀ c ∈ t, c ≠ '-' ∧ c ≠ '_' ∧ ¬ (97 ≤ c.toNat ∧ c.toNat ≤ 122)) →
    normaliseToken t = t) ∧
  (∀ t u : Token, ∀ c : Char, c = '-' ∨ c = '_' →
    normaliseToken (t ++ c :: u) = normaliseToken (t ++ u)) ∧
  (∀ t u : Token, ∀ k < 26,
    normaliseToken (t ++ Char.ofNat (97 + k) :: u) = normaliseToken (t ++ Char.ofNat (65 + k) :: u))

/-- R80: the alias table, and nothing else, selects the opcode; assembler input cannot write the
opcodes 0, 1, 4 and 5. -/
def Obligations.AliasTableSelectsOpcode : Prop :=
  (∀ (t : Token) (m : Mnemonic), mnemonicOfToken t = some m ↔
    (m = .loadc ∧ normaliseToken t ∈ ["LOADC".toList, "LC".toList, "PUSH".toList]) ∨
    (m = .load ∧ normaliseToken t ∈ ["LOAD".toList, "READ".toList, "LD".toList]) ∨
    (m = .store ∧ normaliseToken t ∈ ["STORE".toList, "WRITE".toList, "ST".toList]) ∨
    (m = .shl ∧ normaliseToken t ∈ ["SHL".toList, "SHIFTLEFT".toList])) ∧
  (mnemonicOpcode .loadc = 7 ∧ mnemonicOpcode .load = 2 ∧ mnemonicOpcode .store = 3 ∧
    mnemonicOpcode .shl = 6) ∧
  (∀ (t : Token) (o : Option HostValue), mnemonicOfToken t = none →
    assembleElement (.record (some t) o) = .error (.validation .unknownMnemonic)) ∧
  (∀ (e : Element) (p : Pair), assembleElement e = .ok p →
    ∃ i, p.toInstr = .ok i)

/-- R81 with R67 and R78: for a known mnemonic the operand must be an integer of the legal range,
0 when there is none; what is accepted is emitted as it is. -/
def Obligations.AssemblerValidatesOperand : Prop :=
  ∀ (t : Token) (m : Mnemonic), mnemonicOfToken t = some m →
    (∀ v : Int, 0 ≤ v → v ≤ (if m = .load then 2097151 else 65535) →
      ∃ p, assembleElement (.record (some t) (some (.int v))) = .ok p ∧
        p.a = mnemonicOpcode m ∧ (p.b.toNat : Int) = v) ∧
    (∀ v : Int, (v < 0 ∨ (if m = .load then 2097151 else 65535) < v) →
      assembleElement (.record (some t) (some (.int v))) = .error (.validation .operandRange)) ∧
    assembleElement (.record (some t) (some .notInteger)) = .error (.validation .operandRange) ∧
    assembleElement (.record (some t) none) = .ok { a := mnemonicOpcode m, b := 0 }

/-- R82: an assembly fails with the error and the index of the first failing record, and with no
other; there are no bytes then. That an element which is no record, or has no operation field, takes
its place in that order is the model's reading (log 11). -/
def Obligations.FirstFailingRecordIsReported : Prop :=
  ∀ (es : List Element) (r : ErrorReport),
    assemble (.list es) = .error r ↔
      ∃ (k : Nat) (e : Element) (c : ErrorCause), es[k]? = some e ∧ assembleElement e = .error c ∧
        r = { cause := c, position := .record k } ∧
        ∀ j < k, ∀ e', es[j]? = some e' → ∃ p, assembleElement e' = .ok p

/-- R77: the blob is the records' words in input order, three bytes each, and nothing more; the
empty list gives the empty blob. -/
def Obligations.BlobConcatenatesEncodedRecords : Prop :=
  (∀ (es : List Element) (blob : List Byte), assemble (.list es) = .ok blob ↔
    ∃ ps : List Pair, es.map assembleElement = ps.map .ok ∧ blob = (ps.map encodePair).flatten) ∧
  (∀ (es : List Element) (blob : List Byte), assemble (.list es) = .ok blob →
    blob.length = 3 * es.length) ∧
  assemble (.list []) = .ok []

/-- Assembler and engine agree: an assembled blob decodes to legal instructions only, so no run of
it ends with an unknown opcode or an operand out of range, whatever the memory and the parameters. -/
def Obligations.AssembledBlobsNeverFailOpcodeOrOperandChecks : Prop :=
  ∀ (input : InstructionList) (blob : List Byte), assemble input = .ok blob →
    (∃ ps, decodeStream blob = .ok ps ∧ programLegal ps) ∧
    ∀ (p : Params) (r : RunInput) (s : State), r.blob = blob → boot p r = .ok s →
      ∀ pc, (runToEnd s).status ≠ .faulted (.execution .unknownOpcode) pc ∧
        (runToEnd s).status ≠ .faulted (.validation .operandRange) pc

/-! ### The four instructions (spec/40_stack_ops.md): where they complete, with their frames -/

/-- R102: LOADC completes where its operand passes the check and there is room, and then pushes
`zext_32(B)`; memory, program, status and parameters stay. -/
def Obligations.LoadcPushesImmediate : Prop :=
  ∀ (b : Operand) (s : State),
    (s.params.execOperandCheck = true → b.toNat ≤ 65535) →
    (∀ c, s.params.stackCapacity = some c → s.stack.length < c) →
    ∃ v : Word, v.toNat = b.toNat ∧
      exec (.loadc b) s = .next { s with stack := s.stack ++ [v], pc := s.pc + 1 }

/-- R103: LOAD completes where its address is below the ceiling and there is room, and then pushes
the cell; it stores nothing, and memory grows to cover the address. -/
def Obligations.LoadPushesCell : Prop :=
  ∀ (b : Operand) (s : State),
    absoluteAddress b < s.params.memCeiling →
    (∀ c, s.params.stackCapacity = some c → s.stack.length < c) →
    ∃ t, exec (.load b) s = .next t ∧
      absoluteAddress b = b.toNat ∧
      t.stack = s.stack ++ [s.mem.read (absoluteAddress b)] ∧ t.pc = s.pc + 1 ∧
      (∀ a, t.mem.read a = s.mem.read a) ∧
      t.mem.len = max s.mem.len (absoluteAddress b + 1) ∧
      t.program = s.program ∧ t.status = s.status ∧ t.params = s.params

/-- R104: STORE completes on two values with an address below the ceiling, removes both, and stores
the lower at `(base + B) mod 2^32`; every other cell reads as before. -/
def Obligations.StoreWritesOneCell : Prop :=
  ∀ (b : Operand) (rest : List Word) (value base : Word) (s : State),
    (s.params.execOperandCheck = true → b.toNat ≤ 65535) →
    s.stack = rest ++ [value, base] →
    ∀ addr, offsetAddress base b = addr → addr < s.params.memCeiling →
    ∃ t, exec (.store b) s = .next t ∧
      addr = (base.toNat + b.toNat) % 2 ^ 32 ∧
      t.stack = rest ∧ t.pc = s.pc + 1 ∧
      t.mem.read addr = value ∧ (∀ a, a ≠ addr → t.mem.read a = s.mem.read a) ∧
      t.mem.len = max s.mem.len (addr + 1) ∧
      t.program = s.program ∧ t.status = s.status ∧ t.params = s.params

/-- R105: SHL completes on a value with an address below the ceiling and replaces the top `x` by
`(x << (M[(x + B) mod 2^32] & 0x1F)) mod 2^32`; it stores nothing, and memory grows. -/
def Obligations.ShlShiftsTopByCell : Prop :=
  ∀ (b : Operand) (rest : List Word) (x : Word) (s : State),
    (s.params.execOperandCheck = true → b.toNat ≤ 65535) →
    s.stack = rest ++ [x] →
    ∀ addr, offsetAddress x b = addr → addr < s.params.memCeiling →
    ∃ t, exec (.shl b) s = .next t ∧
      addr = (x.toNat + b.toNat) % 2 ^ 32 ∧
      (∃ y : Word, t.stack = rest ++ [y] ∧
        y.toNat = x.toNat * 2 ^ ((s.mem.read addr).toNat % 32) % 2 ^ 32) ∧
      t.pc = s.pc + 1 ∧
      (∀ a, t.mem.read a = s.mem.read a) ∧
      t.mem.len = max s.mem.len (addr + 1) ∧
      t.program = s.program ∧ t.status = s.status ∧ t.params = s.params

/-! ### The errors of an instruction -/

/-- R71: with the check on, LOADC, STORE and SHL with an operand above 65535 end the run in
OperandRange, whatever the stack and memory; LOAD never does. -/
def Obligations.OperandRangeFaultsBeforeAnythingElse : Prop :=
  (∀ (b : Operand) (s : State), s.params.execOperandCheck = true → 65535 < b.toNat →
    ∀ i, i = .loadc b ∨ i = .store b ∨ i = .shl b →
      exec i s = .next { s with status := .faulted (.validation .operandRange) s.pc }) ∧
  (∀ (b : Operand) (s t : State) (pc : Nat), s.status = .running → exec (.load b) s = .next t →
    t.status ≠ .faulted (.validation .operandRange) pc)

/-- R104, R105: STORE on fewer than two values and SHL on none end the run in StackUnderflow, once
the operand has passed, whatever the memory. -/
def Obligations.StackUnderflowFaults : Prop :=
  ∀ (b : Operand) (s : State), (s.params.execOperandCheck = true → b.toNat ≤ 65535) →
    (s.stack.length < 2 →
      exec (.store b) s = .next { s with status := .faulted (.execution .stackUnderflow) s.pc }) ∧
    (s.stack = [] →
      exec (.shl b) s = .next { s with status := .faulted (.execution .stackUnderflow) s.pc })

/-- R111: at full depth of a finite `STACK_CAPACITY`, LOADC and LOAD end the run in StackOverflow
and nothing else changes; unbounded, no instruction does. -/
def Obligations.StackOverflowOnlyAtFiniteCapacity : Prop :=
  (∀ (b : Operand) (s : State), s.params.stackCapacity = some s.stack.length →
    ((s.params.execOperandCheck = true → b.toNat ≤ 65535) →
      exec (.loadc b) s = .next { s with status := .faulted (.execution .stackOverflow) s.pc }) ∧
    exec (.load b) s = .next { s with status := .faulted (.execution .stackOverflow) s.pc }) ∧
  (∀ (i : Instr) (s t : State) (pc : Nat), s.params.stackCapacity = none → s.status = .running →
    exec i s = .next t → t.status ≠ .faulted (.execution .stackOverflow) pc)

/-- R42, R49: LOAD, STORE and SHL at an address at or above the ceiling end the run in OutOfRange,
once the earlier checks have passed, and memory stays as it was. -/
def Obligations.AddressAtCeilingFaults : Prop :=
  (∀ (b : Operand) (s : State),
    (∀ c, s.params.stackCapacity = some c → s.stack.length < c) →
    s.params.memCeiling ≤ absoluteAddress b →
    exec (.load b) s = .next { s with status := .faulted (.address .outOfRange) s.pc }) ∧
  (∀ (b : Operand) (rest : List Word) (x : Word) (s : State),
    (s.params.execOperandCheck = true → b.toNat ≤ 65535) →
    s.stack = rest ++ [x] → s.params.memCeiling ≤ offsetAddress x b →
    exec (.shl b) s = .next { s with status := .faulted (.address .outOfRange) s.pc } ∧
    (rest ≠ [] →
      exec (.store b) s = .next { s with status := .faulted (.address .outOfRange) s.pc }))

/-- R70: an illegal opcode decodes, spells no instruction, and ends the run in UnknownOpcode with
its pc when the pc reaches it. -/
def Obligations.IllegalOpcodeFaultsWhenReached : Prop :=
  ∀ (s : State) (p : Pair), s.status = .running → s.program[s.pc]? = some p →
    p.a = 0 ∨ p.a = 1 ∨ p.a = 4 ∨ p.a = 5 →
    (∀ i, p.toInstr ≠ .ok i) ∧
    step s = .next { s with status := .faulted (.execution .unknownOpcode) s.pc }

/-- R101, R135: of several errors the first in the order operand range, stack underflow, stack
overflow, address is the one raised; with none the instruction succeeds and the pc advances. -/
def Obligations.FirstApplicableErrorIsRaised : Prop :=
  ∀ (i : Instr) (s : State),
    (∀ c, firstError i s = some c → exec i s = .next { s with status := .faulted c s.pc }) ∧
    (firstError i s = none → ∃ t, exec i s = .next t ∧ t.status = s.status ∧ t.pc = s.pc + 1)

/-! ### The step (spec/40_stack_ops.md section 1, spec/60_exceptions.md) -/

/-- R101: a running step at a pc that holds a recognised instruction is that instruction, with
nothing around it. -/
def Obligations.StepRunsDecodedInstruction : Prop :=
  ∀ (s : State) (p : Pair) (i : Instr), s.status = .running → s.program[s.pc]? = some p →
    p.toInstr = .ok i → step s = exec i s

/-- R75, R101: in a state whose program was decoded from a blob, a running step runs the instruction
that bytes `3 pc .. 3 pc + 2` of the blob spell. -/
def Obligations.StepRunsBytesAtPc : Prop :=
  ∀ (s : State) (blob : List Byte) (b0 b1 b2 : Byte) (i : Instr), s.status = .running →
    decodeStream blob = .ok s.program →
    blob[3 * s.pc]? = some b0 → blob[3 * s.pc + 1]? = some b1 → blob[3 * s.pc + 2]? = some b2 →
    decodeInstr b0 b1 b2 = .ok i → step s = exec i s

/-- The placed word is what the next step runs (log 7 is the model's choice of how it is placed). -/
def Obligations.StepRunsPlacedTableWord : Prop :=
  ∀ (s : State) (w : Nat) (i : Instr), decodeTableWord 24 w = some i →
    step (s.withFetchWord 24 w) = exec i (s.withFetchWord 24 w)

/-- R100: a step is enabled only in `Running`; at the end of the program it sets `Halted` and changes
nothing else; a run of the empty program halts at once. -/
def Obligations.HaltsAtEndOfProgram : Prop :=
  (∀ s : State, s.status ≠ .running → ∀ t, step s ≠ .next t) ∧
  (∀ s : State, s.status = .running → s.pc = s.program.length →
    step s = .next { s with status := .halted }) ∧
  (∀ (p : Params) (r : RunInput) (s : State), r.blob = [] → boot p r = .ok s →
    s.pc = 0 ∧ s.stack = [] ∧ initialMemory p.memCeiling r.initMemSize r.initMemory = .ok s.mem ∧
    runToEnd s = { s with status := .halted })

/-- R133: when a step ends the run in a fault, the fault carries the pc of the instruction, nothing
but the status has changed, no later step exists, and the host gets the fault only. -/
def Obligations.FaultChangesOnlyStatus : Prop :=
  ∀ (s t : State) (c : ErrorCause) (pc : Nat), step s = .next t → t.status = .faulted c pc →
    pc = s.pc ∧ t = { s with status := .faulted c s.pc } ∧ (∀ u, step t ≠ .next u) ∧
    ∀ range, runResult t range = .error { cause := c, position := .pc s.pc }

/-- R25, R108: a step that does not end the run advances the pc by exactly one, inside the program;
a step that ends it leaves the pc. -/
def Obligations.PcAdvancesByOneOrRunEnds : Prop :=
  ∀ s t : State, step s = .next t →
    (t.status = .running ∧ s.pc < s.program.length ∧ t.pc = s.pc + 1) ∨
    (t.status ≠ .running ∧ t.pc = s.pc)

/-- R27, R30: no step changes the program or the parameters, and no instruction reads the program:
with another program it does the same. -/
def Obligations.ProgramIsNeitherWrittenNorRead : Prop :=
  (∀ s t : State, step s = .next t → t.program = s.program ∧ t.params = s.params) ∧
  (∀ (i : Instr) (s t : State) (q : List Pair), exec i s = .next t →
    exec i { s with program := q } = .next { t with program := q })

/-- R43: memory never shrinks, growth never changes what a cell reads, and the length never passes
the ceiling. -/
def Obligations.MemoryGrowsMonotonically : Prop :=
  (∀ s t : State, step s = .next t →
    s.mem.len ≤ t.mem.len ∧
    (s.mem.len ≤ s.params.memCeiling → t.mem.len ≤ t.params.memCeiling)) ∧
  (∀ (ceiling a : Nat) (m m' : Memory), m.ensure ceiling a = some m' →
    (∀ a', m'.read a' = m.read a') ∧ m'.ensure ceiling a = some m')

/-- R40, R47, R55: only a STORE at the pc changes what a cell reads, and then the one cell it
addresses, which reads the stored value. -/
def Obligations.OnlyStoreChangesCells : Prop :=
  ∀ (s t : State) (a : Nat), step s = .next t → t.mem.read a ≠ s.mem.read a →
    ∃ (p : Pair) (b : Operand) (rest : List Word) (value base : Word),
      s.program[s.pc]? = some p ∧ p.toInstr = .ok (.store b) ∧ s.stack = rest ++ [value, base] ∧
      a = offsetAddress base b ∧ t.mem.read a = value

/-- R22: what lies below the top two values is neither written nor read by an instruction: two
stacks of one depth that agree in the top two give the same change above an untouched rest. -/
def Obligations.DeepStackIsUntouchedAndUnread : Prop :=
  ∀ (i : Instr) (s t : State) (rest rest' : List Word) (y x : Word),
    rest.length = rest'.length → s.stack = rest ++ [y, x] → exec i s = .next t →
    ∃ top, t.stack = rest ++ top ∧
      exec i { s with stack := rest' ++ [y, x] } = .next { t with stack := rest' ++ top }

/-- R51, R158: a LOAD reads what the STORE immediately before it stored. -/
def Obligations.LoadSeesPrecedingStore : Prop :=
  ∀ (s t : State) (b c : Operand) (rest : List Word) (value base : Word),
    s.stack = rest ++ [value, base] → exec (.store b) s = .next t → t.pc = s.pc + 1 →
    absoluteAddress c = offsetAddress base b →
    (∀ k, s.params.stackCapacity = some k → rest.length < k) →
    ∃ u, exec (.load c) t = .next u ∧ u.stack = rest ++ [value] ∧ u.pc = s.pc + 2

/-! ### Invariant, termination, equivalent view -/

/-- Every step keeps the invariant: canonical memory, `len(M) <= MEM_CEILING`, `pc <= length(P)`,
the stack bound, and a status that fits the pc. -/
def Obligations.StepKeepsInvariant : Prop :=
  ∀ s t : State, s.Inv → step s = .next t → t.Inv

/-- The invariant holds right after reset. -/
def Obligations.ResetMeetsInvariant : Prop :=
  State.reset.Inv

/-- The invariant holds wherever a run starts, whatever the host hands over. -/
def Obligations.BootMeetsInvariant : Prop :=
  ∀ (p : Params) (r : RunInput) (s : State), boot p r = .ok s → s.Inv

/-- R110: a run of `n` instructions either executes all of them in exactly `n` steps and halts, or
faults at the first faulting instruction after fewer than `n + 1` steps; it never loops. -/
def Obligations.EveryRunEnds : Prop :=
  ∀ s : State, s.status = .running → s.pc = 0 →
    ((steps s.program.length s).status = .running ∧ (steps s.program.length s).pc = s.program.length ∧
      runToEnd s = { steps s.program.length s with status := .halted }) ∨
    (∃ c pc, pc < s.program.length ∧ (∀ k ≤ pc, (steps k s).status = .running ∧ (steps k s).pc = k) ∧
      (steps (pc + 1) s).status = .faulted c pc ∧ runToEnd s = steps (pc + 1) s)

/-- R110 at the host's side: `run` always answers a final stack and snapshot or an error. -/
def Obligations.RunAlwaysAnswers : Prop :=
  ∀ (p : Params) (r : RunInput), run p r ≠ .unfinished

/-- R102, R103: where the ceiling covers LOAD's whole operand field and the stack is unbounded, a
program of legal LOADC and LOAD instructions is safe, and pushes one value per instruction. -/
def Obligations.PushOnlyProgramsAreSafe : Prop :=
  ∀ s : State, s.status = .running → s.pc = 0 → s.params.stackCapacity = none →
    2 ^ 21 ≤ s.params.memCeiling →
    (∀ q ∈ s.program, ∃ i, q.toInstr = .ok i ∧ i.wellFormed = true ∧
      ∃ b, i = .loadc b ∨ i = .load b) →
    s.safe ∧ (runToEnd s).status = .halted ∧
      (runToEnd s).stack.length = s.stack.length + s.program.length

/-- R44: step for step, the machine is the one whose memory is a total function and whose `Ensure`
is the check against the ceiling: every read value, snapshot value and fault agrees. -/
def Obligations.TotalFunctionViewAgrees : Prop :=
  (∀ s : State, flatStep s.params (flatView s) =
    match step s with
    | .next t => some (flatView t)
    | .fault _ => none
    | .refused _ => none) ∧
  (∀ (s t : State) (range : Int × Int) (cells : List (Nat × Word)),
    takeSnapshot s range = .ok (t, cells) → ∀ c ∈ cells, c.2 = (flatView s).mem c.1)

/-- R28: `len(M)` is hidden: a run gives the same result from every initial length that the ceiling
allows. -/
def Obligations.MemoryLengthIsUnobservable : Prop :=
  ∀ (p : Params) (r : RunInput) (n : Nat), r.initMemSize ≤ p.memCeiling → n ≤ p.memCeiling →
    run p { r with initMemSize := n } = run p r

/-! ### Memory, addresses, arithmetic -/

/-- R42: `Ensure` raises at or above the ceiling; below it the memory is extended with zeros to
cover the address, and otherwise stays. -/
def Obligations.EnsureGrowsToCoverAddress : Prop :=
  ∀ (ceiling a : Nat) (m : Memory),
    (ceiling ≤ a → m.ensure ceiling a = none) ∧
    (a < ceiling → ∃ m', m.ensure ceiling a = some m' ∧
      m'.len = (if m.len ≤ a then a + 1 else m.len) ∧
      (∀ a', m'.read a' = m.read a') ∧
      (m.wf → ∀ a', m.len ≤ a' → m'.read a' = 0))

/-- R51 on memory: a read gives the latest write to its cell, and writes to other cells do not
change it; the canonical form is kept. -/
def Obligations.ReadGivesLatestWrite : Prop :=
  ∀ (ceiling a : Nat) (v : Word) (m m' : Memory), m.store ceiling a v = some m' →
    m'.read a = v ∧ (∀ a', a' ≠ a → m'.read a' = m.read a') ∧ (m.wf → m'.wf)

/-- R107: the shifted value, its bits, the range of the amount, and that only the low five bits of
the cell matter. -/
def Obligations.ShiftUsesLowFiveBits : Prop :=
  ∀ x m : Word,
    shiftAmount m = m.toNat % 32 ∧ shiftAmount m < 32 ∧
    (shiftLeft x m).toNat = x.toNat * 2 ^ shiftAmount m % 2 ^ 32 ∧
    (∀ k < 32, (shiftLeft x m).getLsbD k =
      if k < shiftAmount m then false else x.getLsbD (k - shiftAmount m)) ∧
    (∀ m' : Word, m'.extractLsb' 0 5 = m.extractLsb' 0 5 → shiftLeft x m' = shiftLeft x m)

/-- R68, R106, R112: operands are zero-extended, and addresses of STORE and SHL wrap modulo
`2^32`. -/
def Obligations.OperandsZeroExtendAndAddressesWrap : Prop :=
  ∀ (base : Word) (b : Operand),
    (zext32 b).toNat = b.toNat ∧ absoluteAddress b = b.toNat ∧
    offsetAddress base b = (base.toNat + b.toNat) % 2 ^ 32

/-! ### Reset, boot, snapshot (spec/70_reset_and_hazards.md, spec/20_memory.md section 6) -/

/-- R31 with the defaults of R9, R10, R12 and R13. The empty program is the model's choice where no
blob is loaded (log 6). -/
def Obligations.ResetState : Prop :=
  State.reset.pc = 0 ∧ State.reset.stack = [] ∧ State.reset.status = .running ∧
  State.reset.mem.len = 4096 ∧ (∀ a, State.reset.mem.read a = 0) ∧ State.reset.program = [] ∧
  State.reset.params.memCeiling = 2500000 ∧ State.reset.params.stackCapacity = none ∧
  State.reset.params.execOperandCheck = true

/-- R154, R156: boot answers a start state exactly where every check passes. R31: what that state
is. Where a description names a cell more than once, the last entry is the one that counts (log 14,
the model's reading). -/
def Obligations.BootGivesStartOfRun : Prop :=
  (∀ (p : Params) (r : RunInput), (∃ s, boot p r = .ok s) ↔
    r.initMemSize ≤ p.memCeiling ∧ r.blob.length % 3 = 0 ∧
      ∀ d, r.initMemory = some d → ∃ es, initEntries d = .ok es ∧ entriesGood p.memCeiling es) ∧
  ∀ (p : Params) (r : RunInput) (s : State), boot p r = .ok s →
    s.pc = 0 ∧ s.stack = [] ∧ s.status = .running ∧ s.params = p ∧
    decodeStream r.blob = .ok s.program ∧
    (r.initMemory = none → s.mem.len = r.initMemSize ∧ ∀ a, s.mem.read a = 0) ∧
    (∀ d es, r.initMemory = some d → initEntries d = .ok es →
      (∀ a : Nat, (∀ e ∈ es, e.1 ≠ .int a) → s.mem.read a = 0) ∧
      (∀ (before after : List (HostValue × HostValue)) (a : Nat) (v : Int),
        es = before ++ (.int a, .int v) :: after → (∀ e ∈ after, e.1 ≠ .int a) →
        ((s.mem.read a).toNat : Int) = v) ∧
      (∀ n : Nat, s.mem.len ≤ n ↔
        r.initMemSize ≤ n ∧ ∀ (a : Nat) (v : HostValue), (HostValue.int a, v) ∈ es → a + 1 ≤ n))

/-- R152: the entries of the two shapes; a block without `start` and any other shape are
FormatError(InitMemory), and so, by the model's reading (log 13), is a block whose `start` is no
integer. The error of a refused shape is the description's error, and the result of `run`. -/
def Obligations.InitialMemoryShapes : Prop :=
  (∀ (start : Int) (vs : List HostValue), ∃ es,
    initEntries (.block (some (.int start)) vs) = .ok es ∧ es.length = vs.length ∧
    ∀ (i : Nat) (v : HostValue), vs[i]? = some v → es[i]? = some (.int (start + i), v)) ∧
  (∀ es, initEntries (.sparse es) = .ok es) ∧
  (∀ vs, initEntries (.block none vs) = .error (.format .initMemory)) ∧
  (∀ vs, initEntries (.block (some .notInteger) vs) = .error (.format .initMemory)) ∧
  initEntries .unrecognised = .error (.format .initMemory) ∧
  (∀ ceiling size d c, initEntries d = .error c → initialMemory ceiling size (some d) = .error c) ∧
  (∀ (p : Params) (r : RunInput) (d : InitMemory) (c : ErrorCause),
    r.initMemSize ≤ p.memCeiling → r.blob.length % 3 = 0 → r.initMemory = some d →
    initEntries d = .error c → run p r = .error { cause := c, position := .none }) ∧
  (∀ ceiling size, initialMemory ceiling size none = .ok { cells := [], len := size })

/-- R154: in either shape, the first entry with a bad address, or with a bad value, fails the whole
description with its error; one with both fails with one of the two (log 12: the spec orders them
nowhere, and the model leaves it open). That an address which is no integer is
FormatError(InitMemory) is the model's reading (log 13). -/
def Obligations.InitialMemoryValidation : Prop :=
  ∀ (ceiling size : Nat) (d : InitMemory) (before after : List (HostValue × HostValue))
    (x y : HostValue),
    initEntries d = .ok (before ++ (x, y) :: after) → entriesGood ceiling before →
    let result := initialMemory ceiling size (some d)
    (addressOutside ceiling x → valueGood y → result = .error (.address .outOfRange)) ∧
    (addressGood ceiling x → valueBad y → result = .error (.format .initMemory)) ∧
    (x = .notInteger → result = .error (.format .initMemory)) ∧
    (addressOutside ceiling x → valueBad y →
      result = .error (.address .outOfRange) ∨ result = .error (.format .initMemory))

/-- R152, R154 for a block `{start, values}`: where every address and value is good, cell
`start + i` holds `v_i` and every other cell 0; else the first bad pair `(start + i, v_i)` gives the
error, one of two where both are bad (log 12). -/
def Obligations.BlockDescriptionSetsItsCells : Prop :=
  ∀ (ceiling size : Nat) (start : Int) (vs : List HostValue),
    let result := initialMemory ceiling size (some (.block (some (.int start)) vs))
    let goodBelow (n : Nat) : Prop := ∀ (j : Nat) (y : HostValue), j < n → vs[j]? = some y →
      addressGood ceiling (.int (start + j)) ∧ valueGood y
    (goodBelow vs.length → ∃ m, result = .ok m ∧
      (∀ (i : Nat) (v : Int), vs[i]? = some (.int v) →
        ((m.read (start + i).toNat).toNat : Int) = v) ∧
      (∀ a : Nat, (a < start ∨ start + vs.length ≤ a) → m.read a = 0)) ∧
    (∀ (i : Nat) (y : HostValue), vs[i]? = some y → goodBelow i →
      (addressOutside ceiling (.int (start + i)) → valueGood y →
        result = .error (.address .outOfRange)) ∧
      (addressGood ceiling (.int (start + i)) → valueBad y →
        result = .error (.format .initMemory)) ∧
      (addressOutside ceiling (.int (start + i)) → valueBad y →
        result = .error (.address .outOfRange) ∨ result = .error (.format .initMemory)))

/-- R156: the phases of `run` in order; the first error is the only result, and it carries no pc
unless the engine raised it. -/
def Obligations.RunPhasesInOrder : Prop :=
  ∀ (p : Params) (r : RunInput),
    (p.memCeiling < r.initMemSize →
      run p r = .error { cause := .address .outOfRange, position := .none }) ∧
    (r.initMemSize ≤ p.memCeiling → r.blob.length % 3 ≠ 0 →
      run p r = .error { cause := .format .streamLength, position := .none }) ∧
    (r.initMemSize ≤ p.memCeiling → r.blob.length % 3 = 0 →
      ∀ c, initialMemory p.memCeiling r.initMemSize r.initMemory = .error c →
        run p r = .error { cause := c, position := .none }) ∧
    (∀ s, boot p r = .ok s →
      (∀ c pc, (runToEnd s).status = .faulted c pc →
        run p r = .error { cause := c, position := .pc pc }) ∧
      ((runToEnd s).status = .halted →
        (∀ c, takeSnapshot (runToEnd s) r.snapshotRange = .error c →
          run p r = .error { cause := c, position := .none }) ∧
        (∀ t cells, takeSnapshot (runToEnd s) r.snapshotRange = .ok (t, cells) →
          run p r = .finished (runToEnd s).stack r.snapshotRange cells)))

/-- R56, R57: the snapshot of a halted run lists the cells of the range in ascending order, grows
memory to cover it, and changes nothing else. -/
def Obligations.SnapshotListsRange : Prop :=
  ∀ (s : State) (start stop : Nat), s.status = .halted → start < stop →
    stop ≤ s.params.memCeiling →
    ∃ t cells, takeSnapshot s (start, stop) = .ok (t, cells) ∧
      cells.length = stop - start ∧
      (∀ k < stop - start, cells[k]? = some (start + k, s.mem.read (start + k))) ∧
      t = { s with mem := t.mem } ∧ (∀ a, t.mem.read a = s.mem.read a) ∧
      t.mem.len = max s.mem.len stop ∧
      runResult s (start, stop) = .finished s.stack (start, stop) cells

/-- R58: the errors of the range, and the empty range. Two points stay open in the model: a range
with `end < start` and a negative start reports one of the two errors (log 21: no rule orders them),
and a negative empty range is either rejected or valid (log 15: R58 says both). -/
def Obligations.SnapshotRangeErrors : Prop :=
  ∀ (s : State) (start stop : Int),
    (stop < start → 0 ≤ start → takeSnapshot s (start, stop) = .error (.format .snapshotRange)) ∧
    (stop < start → start < 0 → takeSnapshot s (start, stop) = .error (.format .snapshotRange) ∨
      takeSnapshot s (start, stop) = .error (.address .outOfRange)) ∧
    (start < stop → (start < 0 ∨ (s.params.memCeiling : Int) ≤ stop - 1) →
      takeSnapshot s (start, stop) = .error (.address .outOfRange)) ∧
    (start = stop → 0 ≤ start → takeSnapshot s (start, stop) = .ok (s, [])) ∧
    (start = stop → start < 0 → takeSnapshot s (start, stop) = .error (.address .outOfRange) ∨
      takeSnapshot s (start, stop) = .ok (s, []))

/-- R131: the codes name kind and reason, without two causes sharing one. -/
def Obligations.ErrorCodesAreDistinct : Prop :=
  (∀ c d : ErrorCause, c.code = d.code → c = d) ∧
  (∀ c : ErrorCause, c.code.1 =
    match c.kind with
    | .formatError => 1
    | .validationError => 2
    | .addressError => 3
    | .executionError => 4)
end

