-- ==== Sys2Proof/Laws/Decode.lean ====
section
/-!
SUPPORT. The instruction word bit by bit: what each bit of a decoded pair and of an encoded byte is.
-/

namespace Sys2Proof

theorem getLsbD_wordOfBytes (b0 b1 b2 : Byte) (i : Nat) :
    (wordOfBytes b0 b1 b2).getLsbD i =
      if i < 8 then b0.getLsbD i
      else if i < 16 then b1.getLsbD (i - 8)
      else if i < 24 then b2.getLsbD (i - 16) else false := by
  simp only [wordOfBytes, BitVec.getLsbD_or, BitVec.getLsbD_setWidth, BitVec.getLsbD_shiftLeft]
  have h0 : 8 ≤ i → b0.getLsbD i = false := BitVec.getLsbD_of_ge b0 i
  have h1 : 16 ≤ i → b1.getLsbD (i - 8) = false := fun h => BitVec.getLsbD_of_ge b1 _ (by omega)
  have h2 : 24 ≤ i → b2.getLsbD (i - 16) = false := fun h => BitVec.getLsbD_of_ge b2 _ (by omega)
  by_cases c0 : i < 8
  · simp [c0, show i < 24 by omega, show i < 16 by omega]
  · by_cases c1 : i < 16
    · simp [c0, c1, show i < 24 by omega, h0 (by omega), show i - 8 < 24 by omega]
    · by_cases c2 : i < 24
      · simp [c0, c1, c2, h0 (by omega), h1 (by omega), show i - 16 < 24 by omega]
      · simp [c0, c1, c2]

theorem getLsbD_wordOfPair (p : Pair) (i : Nat) :
    (wordOfPair p).getLsbD i =
      if i < 3 then p.a.getLsbD i else if i < 24 then p.b.getLsbD (i - 3) else false := by
  simp only [wordOfPair, BitVec.getLsbD_or, BitVec.getLsbD_setWidth, BitVec.getLsbD_shiftLeft]
  have ha : 3 ≤ i → p.a.getLsbD i = false := BitVec.getLsbD_of_ge p.a i
  by_cases c0 : i < 3
  · simp [c0, show i < 24 by omega]
  · by_cases c1 : i < 24
    · simp [c0, c1, ha (by omega), show i - 3 < 24 by omega]
    · simp [c0, c1, ha (by omega)]

theorem toNat_wordOfPair (p : Pair) : (wordOfPair p).toNat = 8 * p.b.toNat + p.a.toNat := by
  have ha := p.a.isLt
  have hb := p.b.isLt
  simp only [wordOfPair, BitVec.toNat_or, BitVec.toNat_shiftLeft, BitVec.toNat_setWidth]
  rw [Nat.mod_eq_of_lt (show p.b.toNat < 2 ^ 24 by omega),
    Nat.mod_eq_of_lt (show p.a.toNat < 2 ^ 24 by omega), Nat.shiftLeft_eq,
    Nat.mod_eq_of_lt (show p.b.toNat * 2 ^ 3 < 2 ^ 24 by omega), ← Nat.shiftLeft_eq,
    ← Nat.shiftLeft_add_eq_or_of_lt (show p.a.toNat < 2 ^ 3 by omega), Nat.shiftLeft_eq]
  omega

@[simp] theorem pairOfWord_wordOfPair (p : Pair) : pairOfWord (wordOfPair p) = p := by
  obtain ⟨a, b⟩ := p
  simp only [pairOfWord, Pair.mk.injEq]
  constructor
  · apply BitVec.eq_of_getLsbD_eq
    intro i hi
    simp only [BitVec.getLsbD_extractLsb', getLsbD_wordOfPair]
    simp [hi]
  · apply BitVec.eq_of_getLsbD_eq
    intro i hi
    simp only [BitVec.getLsbD_extractLsb', getLsbD_wordOfPair]
    simp [hi, show ¬ 3 + i < 3 by omega, show 3 + i < 24 by omega]

@[simp] theorem wordOfPair_pairOfWord (w : Word24) : wordOfPair (pairOfWord w) = w := by
  apply BitVec.eq_of_getLsbD_eq
  intro i hi
  simp only [getLsbD_wordOfPair, pairOfWord, BitVec.getLsbD_extractLsb']
  by_cases c0 : i < 3
  · simp [c0]
  · simp [c0, hi, show i - 3 < 21 by omega, show 3 + (i - 3) = i by omega]

theorem wordOfBytes_bytes (w : Word24) :
    wordOfBytes (byteOfWord 0 w) (byteOfWord 1 w) (byteOfWord 2 w) = w := by
  apply BitVec.eq_of_getLsbD_eq
  intro i hi
  simp only [getLsbD_wordOfBytes, byteOfWord, BitVec.getLsbD_extractLsb']
  by_cases c0 : i < 8
  · simp [c0]
  · by_cases c1 : i < 16
    · simp [c0, c1, show i - 8 < 8 by omega, show 8 + (i - 8) = i by omega]
    · simp [c0, c1, hi, show i - 16 < 8 by omega, show 16 + (i - 16) = i by omega]

theorem bytes_wordOfBytes (b0 b1 b2 : Byte) :
    byteOfWord 0 (wordOfBytes b0 b1 b2) = b0 ∧ byteOfWord 1 (wordOfBytes b0 b1 b2) = b1 ∧
      byteOfWord 2 (wordOfBytes b0 b1 b2) = b2 := by
  refine ⟨?_, ?_, ?_⟩ <;> apply BitVec.eq_of_getLsbD_eq <;> intro i hi <;>
    simp only [byteOfWord, BitVec.getLsbD_extractLsb', getLsbD_wordOfBytes]
  · simp [hi]
  · simp [hi, show 8 + i < 16 by omega]
  · simp [hi, show ¬ 16 + i < 8 by omega, show 16 + i < 24 by omega]

/-- The instruction of a pair is the one whose pair it is. -/
theorem toPair_of_toInstr {p : Pair} {i : Instr} (h : p.toInstr = .ok i) : i.toPair = p := by
  obtain ⟨a, b⟩ := p
  unfold Pair.toInstr at h
  split at h <;> simp_all [Instr.toPair] <;> subst h <;> simp

end Sys2Proof
end

