-- ==== Sys2Proof/Laws/Memory.lean ====
section
/-!
SUPPORT. Memory: a read after a write, what growth and `Ensure` leave alone, and that every memory
operation keeps the canonical form.
-/

namespace Sys2Proof.Machine

/-! ### Reads and writes of the cell list -/

theorem lookupCell_eraseCell (l : List Cell) (a a' : Nat) :
    lookupCell (eraseCell l a) a' = if a' = a then 0 else lookupCell l a' := by
  induction l with
  | nil => simp [eraseCell, lookupCell]
  | cons c rest ih =>
    obtain ⟨b, w⟩ := c
    by_cases hb : a = b
    · by_cases ha : a' = a <;> simp_all [eraseCell, lookupCell]
    · by_cases ha : a' = b
      · subst ha
        have : a' ≠ a := fun h => hb h.symm
        simp [eraseCell, lookupCell, hb, this]
      · simp [eraseCell, lookupCell, hb, ha, ih]

theorem lookupCell_insertCell (l : List Cell) (a a' : Nat) (v : Word)
    (hfresh : ∀ c ∈ l, c.1 ≠ a) :
    lookupCell (insertCell l a v) a' = if a' = a then v else lookupCell l a' := by
  induction l with
  | nil => simp [insertCell, lookupCell]
  | cons c rest ih =>
    obtain ⟨b, w⟩ := c
    have hb : b ≠ a := hfresh (b, w) (by simp)
    have ih := ih fun c hc => hfresh c (by simp [hc])
    by_cases hlt : a < b
    · by_cases ha : a' = a <;> simp [insertCell, lookupCell, hlt, ha]
    · by_cases ha : a' = b
      · subst ha
        simp [insertCell, lookupCell, hlt, hb]
      · simp [insertCell, lookupCell, hlt, ha, ih]

theorem mem_eraseCell {l : List Cell} {a : Nat} {c : Cell} :
    c ∈ eraseCell l a ↔ c ∈ l ∧ c.1 ≠ a := by
  induction l with
  | nil => simp [eraseCell]
  | cons d rest ih =>
    obtain ⟨b, w⟩ := d
    by_cases hb : a = b
    · subst hb
      simp only [eraseCell, if_true, ih, List.mem_cons]
      constructor
      · exact fun h => ⟨.inr h.1, h.2⟩
      · rintro ⟨rfl | h, hne⟩
        · exact absurd rfl hne
        · exact ⟨h, hne⟩
    · simp only [eraseCell, hb, if_false, List.mem_cons, ih]
      constructor
      · rintro (rfl | h)
        · exact ⟨.inl rfl, fun he => hb he.symm⟩
        · exact ⟨.inr h.1, h.2⟩
      · rintro ⟨rfl | h, hne⟩
        · exact .inl rfl
        · exact .inr ⟨h, hne⟩

theorem mem_insertCell {l : List Cell} {a : Nat} {v : Word} {c : Cell} :
    c ∈ insertCell l a v ↔ c = (a, v) ∨ c ∈ l := by
  induction l with
  | nil => simp [insertCell]
  | cons d rest ih =>
    obtain ⟨b, w⟩ := d
    by_cases hlt : a < b
    · simp [insertCell, hlt]
    · simp only [insertCell, hlt, if_false, List.mem_cons, ih]
      tauto

/-- A read after a write gives the value written, and every other cell reads as before; this needs
no canonical form. -/
theorem lookupCell_writeCell (l : List Cell) (a a' : Nat) (v : Word) :
    lookupCell (writeCell l a v) a' = if a' = a then v else lookupCell l a' := by
  unfold writeCell
  split
  · next h => rw [lookupCell_eraseCell, h]
  · rw [lookupCell_insertCell _ _ _ _ fun c hc => (mem_eraseCell.mp hc).2,
      lookupCell_eraseCell]
    split <;> rfl

/-! ### Memory -/

@[simp] theorem Memory.read_put (m : Memory) (a a' : Nat) (v : Word) :
    (m.put a v).read a' = if a' = a then v else m.read a' :=
  lookupCell_writeCell m.cells a a' v

@[simp] theorem Memory.len_put (m : Memory) (a : Nat) (v : Word) : (m.put a v).len = m.len := rfl

@[simp] theorem Memory.cells_grow (m : Memory) (a : Nat) : (m.grow a).cells = m.cells := by
  unfold Memory.grow
  split <;> rfl

@[simp] theorem Memory.read_grow (m : Memory) (a a' : Nat) : (m.grow a).read a' = m.read a' := by
  simp [Memory.read]

@[simp] theorem Memory.len_grow (m : Memory) (a : Nat) : (m.grow a).len = max m.len (a + 1) := by
  unfold Memory.grow
  split <;> simp <;> omega

theorem Memory.ensure_of_lt {ceiling a : Nat} (m : Memory) (h : a < ceiling) :
    m.ensure ceiling a = some (m.grow a) := by
  simp [Memory.ensure, h]

theorem Memory.ensure_of_ge {ceiling a : Nat} (m : Memory) (h : ceiling ≤ a) :
    m.ensure ceiling a = none := by
  simp [Memory.ensure, h]

theorem Memory.load_of_lt {ceiling a : Nat} (m : Memory) (h : a < ceiling) :
    m.load ceiling a = some (m.read a, m.grow a) := by
  simp [Memory.load, Memory.ensure_of_lt m h]

theorem Memory.load_of_ge {ceiling a : Nat} (m : Memory) (h : ceiling ≤ a) :
    m.load ceiling a = none := by
  simp [Memory.load, Memory.ensure_of_ge m h]

theorem Memory.store_of_lt {ceiling a : Nat} (m : Memory) (v : Word) (h : a < ceiling) :
    m.store ceiling a v = some ((m.grow a).put a v) := by
  simp [Memory.store, Memory.ensure_of_lt m h]

theorem Memory.store_of_ge {ceiling a : Nat} (m : Memory) (v : Word) (h : ceiling ≤ a) :
    m.store ceiling a v = none := by
  simp [Memory.store, Memory.ensure_of_ge m h]

/-! ### The canonical form -/

theorem pairwise_eraseCell {l : List Cell} (a : Nat) (h : l.Pairwise fun c d => c.1 < d.1) :
    (eraseCell l a).Pairwise fun c d => c.1 < d.1 := by
  induction l with
  | nil => exact h
  | cons c rest ih =>
    obtain ⟨b, w⟩ := c
    rw [List.pairwise_cons] at h
    by_cases hb : a = b
    · simpa [eraseCell, hb] using hb ▸ ih h.2
    · simp only [eraseCell, hb, if_false, List.pairwise_cons]
      exact ⟨fun d hd => h.1 d (mem_eraseCell.mp hd).1, ih h.2⟩

theorem pairwise_insertCell {l : List Cell} {a : Nat} (v : Word)
    (h : l.Pairwise fun c d => c.1 < d.1) (hfresh : ∀ c ∈ l, c.1 ≠ a) :
    (insertCell l a v).Pairwise fun c d => c.1 < d.1 := by
  induction l with
  | nil => simp [insertCell]
  | cons c rest ih =>
    obtain ⟨b, w⟩ := c
    have hb : b ≠ a := hfresh (b, w) (by simp)
    rw [List.pairwise_cons] at h
    by_cases hlt : a < b
    · simp only [insertCell, hlt, if_true, List.pairwise_cons]
      refine ⟨?_, h⟩
      rintro d hd
      rcases List.mem_cons.mp hd with rfl | hd
      · exact hlt
      · exact hlt.trans (h.1 d hd)
    · simp only [insertCell, hlt, if_false, List.pairwise_cons]
      refine ⟨?_, ih h.2 fun c hc => hfresh c (by simp [hc])⟩
      rintro d hd
      rcases mem_insertCell.mp hd with rfl | hd
      · show b < a
        omega
      · exact h.1 d hd

theorem Memory.wf_grow {m : Memory} (a : Nat) (h : m.wf) : (m.grow a).wf := by
  refine ⟨by simpa using h.1, fun c hc => ?_⟩
  have := h.2 c (by simpa using hc)
  exact ⟨this.1, by simp; omega⟩

theorem Memory.wf_put {m : Memory} {a : Nat} (v : Word) (h : m.wf) (ha : a < m.len) :
    (m.put a v).wf := by
  unfold Memory.put writeCell
  by_cases hv : v = 0
  · simp only [hv, if_true]
    exact ⟨pairwise_eraseCell a h.1, fun c hc => h.2 c (mem_eraseCell.mp hc).1⟩
  · simp only [hv, if_false]
    refine ⟨pairwise_insertCell v (pairwise_eraseCell a h.1) fun c hc => (mem_eraseCell.mp hc).2, ?_⟩
    intro c hc
    rcases mem_insertCell.mp hc with rfl | hc
    · exact ⟨hv, ha⟩
    · exact h.2 c (mem_eraseCell.mp hc).1

theorem Memory.wf_ensure {ceiling a : Nat} {m m' : Memory} (h : m.wf)
    (he : m.ensure ceiling a = some m') : m'.wf := by
  unfold Memory.ensure at he
  split at he
  · cases he
    exact Memory.wf_grow a h
  · cases he

theorem Memory.wf_load {ceiling a : Nat} {m m' : Memory} {v : Word} (h : m.wf)
    (hl : m.load ceiling a = some (v, m')) : m'.wf := by
  unfold Memory.load at hl
  split at hl
  · cases hl
  · next he =>
    cases hl
    exact Memory.wf_ensure h he

theorem Memory.wf_store {ceiling a : Nat} {m m' : Memory} {v : Word} (h : m.wf)
    (hs : m.store ceiling a v = some m') : m'.wf := by
  by_cases ha : a < ceiling
  · rw [Memory.store_of_lt m v ha] at hs
    cases hs
    exact Memory.wf_put v (Memory.wf_grow a h) (by simp)
  · rw [Memory.store_of_ge m v (Nat.le_of_not_lt ha)] at hs
    cases hs

theorem reset_memory_wf : State.reset.mem.wf := by
  decide

end Sys2Proof.Machine
end

