-- ==== Sys2Proof/Laws/Operands.lean ====
section
/-!
SUPPORT. Operands and shifts as numbers.
-/

namespace Sys2Proof.Machine

@[simp] theorem toNat_zext32 (b : Operand) : (zext32 b).toNat = b.toNat := by
  have := b.isLt
  simp only [zext32, BitVec.toNat_setWidth]
  omega

theorem operandFits16_iff (b : Operand) : operandFits16 b = true ↔ b.toNat ≤ 65535 := by
  simp [operandFits16]

theorem operandRejected_iff (p : Params) (b : Operand) :
    operandRejected p b = true ↔ p.execOperandCheck = true ∧ 65535 < b.toNat := by
  simp [operandRejected, operandFits16]

theorem operandRejected_eq_false_iff (p : Params) (b : Operand) :
    operandRejected p b = false ↔ (p.execOperandCheck = true → b.toNat ≤ 65535) := by
  rw [← Bool.not_eq_true, operandRejected_iff]
  constructor
  · intro h hc
    by_contra hb
    exact h ⟨hc, by omega⟩
  · rintro h ⟨hc, hb⟩
    have := h hc
    omega

theorem offsetAddress_lt (base : Word) (b : Operand) : offsetAddress base b < 2 ^ 32 :=
  (base + zext32 b).isLt

theorem shiftAmount_eq_mod (m : Word) : shiftAmount m = m.toNat % 32 := by
  simp only [shiftAmount, BitVec.toNat_and, BitVec.toNat_ofNat]
  rw [show (31 % 2 ^ 32 : Nat) = 2 ^ 5 - 1 from rfl, Nat.and_two_pow_sub_one_eq_mod]

theorem shiftAmount_lt (m : Word) : shiftAmount m < 32 := by
  rw [shiftAmount_eq_mod]
  exact Nat.mod_lt _ (by decide)

/-- LOAD's range is the whole field (R67). -/
theorem load_wellFormed (b : Operand) : (Instr.load b).wellFormed = true :=
  decide_eq_true (show b.toNat ≤ 2097151 by have := b.isLt; omega)

/-- The engine's range check of R101 rejects exactly the ill-formed instructions. -/
theorem operandRejected_loadc (p : Params) (b : Operand) :
    operandRejected p b = (p.execOperandCheck && !(Instr.loadc b).wellFormed) := rfl

theorem operandRejected_store (p : Params) (b : Operand) :
    operandRejected p b = (p.execOperandCheck && !(Instr.store b).wellFormed) := rfl

theorem operandRejected_shl (p : Params) (b : Operand) :
    operandRejected p b = (p.execOperandCheck && !(Instr.shl b).wellFormed) := rfl

end Sys2Proof.Machine
end

