-- ==== Sys2Proof/Laws/State.lean ====
section
/-!
SUPPORT. One lemma per field per update of State, so that no proof unfolds a record update, and the
small lemmas of the stack accessors.
-/

namespace Sys2Proof.Machine

variable (s : State) (v : Word)

@[simp] theorem push_program : (push v s).program = s.program := rfl
@[simp] theorem push_pc : (push v s).pc = s.pc := rfl
@[simp] theorem push_stack : (push v s).stack = s.stack ++ [v] := rfl
@[simp] theorem push_mem : (push v s).mem = s.mem := rfl
@[simp] theorem push_status : (push v s).status = s.status := rfl
@[simp] theorem push_params : (push v s).params = s.params := rfl

@[simp] theorem pop_program : (pop s).program = s.program := rfl
@[simp] theorem pop_pc : (pop s).pc = s.pc := rfl
@[simp] theorem pop_stack : (pop s).stack = s.stack.dropLast := rfl
@[simp] theorem pop_mem : (pop s).mem = s.mem := rfl
@[simp] theorem pop_status : (pop s).status = s.status := rfl
@[simp] theorem pop_params : (pop s).params = s.params := rfl

theorem raise_eq_next (c : ErrorCause) :
    raise c s = .next { s with status := .faulted c s.pc } := rfl

theorem retire_eq_next : retire s = .next { s with pc := s.pc + 1 } := rfl

theorem halt_eq_next : halt s = .next { s with status := .halted } := rfl

theorem top_of_stack {rest : List Word} {x : Word} (h : s.stack = rest ++ [x]) : top s = x := by
  simp [top, h]

theorem second_of_stack {rest : List Word} {x y : Word} (h : s.stack = rest ++ [y, x]) :
    second s = y := by
  have h' : s.stack = (rest ++ [y]) ++ [x] := by simp [h]
  rw [second, h', List.dropLast_concat]
  simp

theorem stackBelow_iff (n : Nat) : stackBelow n s = true ↔ s.stack.length < n := by
  simp [stackBelow]

/-- A stack that is not below one value has a top. -/
theorem exists_top_of_not_below (h : stackBelow 1 s = false) :
    ∃ rest x, s.stack = rest ++ [x] := by
  have hne : s.stack ≠ [] := by
    intro he
    simp [stackBelow, he] at h
  exact ⟨s.stack.dropLast, s.stack.getLast hne, (List.dropLast_append_getLast hne).symm⟩

/-- A stack that is not below two values has a top and a value below it. -/
theorem exists_top_two_of_not_below (h : stackBelow 2 s = false) :
    ∃ rest y x, s.stack = rest ++ [y, x] := by
  have hlen : 2 ≤ s.stack.length := by
    simp only [stackBelow, decide_eq_false_iff_not] at h
    omega
  have hne : s.stack ≠ [] := by
    intro he
    simp [he] at hlen
  have hne' : s.stack.dropLast ≠ [] := by
    intro he
    have := congrArg List.length he
    simp at this
    omega
  refine ⟨s.stack.dropLast.dropLast, s.stack.dropLast.getLast hne', s.stack.getLast hne, ?_⟩
  calc s.stack = s.stack.dropLast ++ [s.stack.getLast hne] :=
        (List.dropLast_append_getLast hne).symm
    _ = (s.stack.dropLast.dropLast ++ [s.stack.dropLast.getLast hne']) ++ [s.stack.getLast hne] := by
        rw [List.dropLast_append_getLast hne']
    _ = _ := by simp

theorem stackFull_iff :
    stackFull s = true ↔ ∃ c, s.params.stackCapacity = some c ∧ c ≤ s.stack.length := by
  unfold stackFull
  cases s.params.stackCapacity <;> simp

end Sys2Proof.Machine
end

