-- ==== Sys2Proof/Laws/Exec.lean ====
section
/-!
SUPPORT. What each meaning can answer, said once: it answers a next state, which is either the fault
entry of one cause or the instruction's effect. Later proofs cite these and unfold no meaning.
-/

namespace Sys2Proof.Machine

variable {b : Operand} {s t : State}

/-- The state after fault entry (R133). -/
def faultState (c : ErrorCause) (s : State) : State :=
  { s with status := .faulted c s.pc }

/-- The state after LOADC's effect. -/
def loadcState (b : Operand) (s : State) : State :=
  { s with stack := s.stack ++ [zext32 b], pc := s.pc + 1 }

/-- The state after LOAD's effect. -/
def loadState (b : Operand) (s : State) : State :=
  { s with
    stack := s.stack ++ [s.mem.read (absoluteAddress b)]
    mem := s.mem.grow (absoluteAddress b)
    pc := s.pc + 1 }

/-- The state after STORE's effect on a stack `rest ++ [value, base]`. -/
def storeState (b : Operand) (rest : List Word) (value base : Word) (s : State) : State :=
  { s with
    stack := rest
    mem := (s.mem.grow (offsetAddress base b)).put (offsetAddress base b) value
    pc := s.pc + 1 }

/-- The state after SHL's effect on a stack `rest ++ [x]`. -/
def shlState (b : Operand) (rest : List Word) (x : Word) (s : State) : State :=
  { s with
    stack := rest ++ [shiftLeft x (s.mem.read (offsetAddress x b))]
    mem := s.mem.grow (offsetAddress x b)
    pc := s.pc + 1 }

theorem execLoadc_cases (h : execLoadc b s = .next t) :
    (∃ c, t = faultState c s) ∨
      (operandRejected s.params b = false ∧ stackFull s = false ∧ t = loadcState b s) := by
  unfold execLoadc at h
  split at h
  · cases h; exact .inl ⟨_, rfl⟩
  · split at h
    · cases h; exact .inl ⟨_, rfl⟩
    · cases h; exact .inr ⟨by simp_all, by simp_all, rfl⟩

theorem execLoad_cases (h : execLoad b s = .next t) :
    (∃ c, t = faultState c s) ∨
      (stackFull s = false ∧ absoluteAddress b < s.params.memCeiling ∧ t = loadState b s) := by
  unfold execLoad at h
  split at h
  · cases h; exact .inl ⟨_, rfl⟩
  · by_cases ha : absoluteAddress b < s.params.memCeiling
    · rw [Memory.load_of_lt _ ha] at h
      cases h; exact .inr ⟨by simp_all, ha, rfl⟩
    · rw [Memory.load_of_ge _ (Nat.le_of_not_lt ha)] at h
      cases h; exact .inl ⟨_, rfl⟩

theorem execStore_cases (h : execStore b s = .next t) :
    (∃ c, t = faultState c s) ∨
      ∃ rest value base, operandRejected s.params b = false ∧ s.stack = rest ++ [value, base] ∧
        offsetAddress base b < s.params.memCeiling ∧ t = storeState b rest value base s := by
  unfold execStore at h
  split at h
  · cases h; exact .inl ⟨_, rfl⟩
  · split at h
    · cases h; exact .inl ⟨_, rfl⟩
    · next hr hb =>
      obtain ⟨rest, value, base, hs⟩ := exists_top_two_of_not_below s (by simpa using hb)
      have htop : top s = base := top_of_stack s (rest := rest ++ [value]) (by simp [hs])
      rw [htop, second_of_stack s hs] at h
      by_cases ha : offsetAddress base b < s.params.memCeiling
      · rw [Memory.store_of_lt _ _ ha] at h
        cases h
        refine .inr ⟨rest, value, base, by simpa using hr, hs, ha, ?_⟩
        have hd : s.stack.dropLast.dropLast = rest := by
          rw [hs, show rest ++ [value, base] = (rest ++ [value]) ++ [base] by simp,
            List.dropLast_concat, List.dropLast_concat]
        simp [storeState, pop, hd]
      · rw [Memory.store_of_ge _ _ (Nat.le_of_not_lt ha)] at h
        cases h; exact .inl ⟨_, rfl⟩

theorem execShl_cases (h : execShl b s = .next t) :
    (∃ c, t = faultState c s) ∨
      ∃ rest x, operandRejected s.params b = false ∧ s.stack = rest ++ [x] ∧
        offsetAddress x b < s.params.memCeiling ∧ t = shlState b rest x s := by
  unfold execShl at h
  split at h
  · cases h; exact .inl ⟨_, rfl⟩
  · split at h
    · cases h; exact .inl ⟨_, rfl⟩
    · next hr hb =>
      obtain ⟨rest, x, hs⟩ := exists_top_of_not_below s (by simpa using hb)
      rw [top_of_stack s hs] at h
      by_cases ha : offsetAddress x b < s.params.memCeiling
      · rw [Memory.load_of_lt _ ha] at h
        cases h
        refine .inr ⟨rest, x, by simpa using hr, hs, ha, ?_⟩
        simp [shlState, push, pop, hs]
      · rw [Memory.load_of_ge _ (Nat.le_of_not_lt ha)] at h
        cases h; exact .inl ⟨_, rfl⟩

/-- Everything an instruction can do: fault entry, or its effect. -/
theorem exec_cases {i : Instr} (h : exec i s = .next t) :
    (∃ c, t = faultState c s) ∨
    (∃ b, i = .loadc b ∧ operandRejected s.params b = false ∧ stackFull s = false ∧
      t = loadcState b s) ∨
    (∃ b, i = .load b ∧ stackFull s = false ∧ absoluteAddress b < s.params.memCeiling ∧
      t = loadState b s) ∨
    (∃ b rest value base, i = .store b ∧ operandRejected s.params b = false ∧
      s.stack = rest ++ [value, base] ∧ offsetAddress base b < s.params.memCeiling ∧
      t = storeState b rest value base s) ∨
    (∃ b rest x, i = .shl b ∧ operandRejected s.params b = false ∧ s.stack = rest ++ [x] ∧
      offsetAddress x b < s.params.memCeiling ∧ t = shlState b rest x s) := by
  cases i with
  | loadc b =>
    rcases execLoadc_cases h with h | h
    · exact .inl h
    · exact .inr (.inl ⟨b, rfl, h⟩)
  | load b =>
    rcases execLoad_cases h with h | h
    · exact .inl h
    · exact .inr (.inr (.inl ⟨b, rfl, h⟩))
  | store b =>
    rcases execStore_cases h with h | ⟨rest, value, base, h⟩
    · exact .inl h
    · exact .inr (.inr (.inr (.inl ⟨b, rest, value, base, rfl, h⟩)))
  | shl b =>
    rcases execShl_cases h with h | ⟨rest, x, h⟩
    · exact .inl h
    · exact .inr (.inr (.inr (.inr ⟨b, rest, x, rfl, h⟩)))

/-- No instruction is refused, and none has no next state. -/
theorem exec_answers_next (i : Instr) (s : State) : ∃ t, exec i s = .next t := by
  cases i with
  | loadc b => simp only [exec, execLoadc]; repeat' split
               all_goals exact ⟨_, rfl⟩
  | load b => simp only [exec, execLoad]; repeat' split
              all_goals exact ⟨_, rfl⟩
  | store b => simp only [exec, execStore]; repeat' split
               all_goals exact ⟨_, rfl⟩
  | shl b => simp only [exec, execShl]; repeat' split
             all_goals exact ⟨_, rfl⟩

end Sys2Proof.Machine
end

