-- ==== Sys2Proof/Laws/HostInterface.lean ====
section
/-!
SUPPORT. What the host operation `run` can do before and after the steps, said once: an entry of the
initial memory, a description, the boot, the snapshot.
-/

namespace Sys2Proof.Machine

variable {ceiling : Nat}

/-! ### One entry (R154) -/

theorem initAddress_of_outside {x : HostValue} (h : addressOutside ceiling x) :
    initAddress ceiling x = .error (.address .outOfRange) := by
  obtain ⟨a, rfl, h⟩ := h
  exact if_neg (by omega)

theorem initValue_of_bad {y : HostValue} (h : valueBad y) :
    initValue y = .error (.format .initMemory) := by
  obtain rfl | ⟨v, rfl, h⟩ := h
  · rfl
  · exact if_neg (by omega)

theorem initAddress_ok {x : HostValue} {a : Nat} :
    initAddress ceiling x = .ok a ↔ x = .int a ∧ a < ceiling := by
  cases x with
  | notInteger => simp [initAddress]
  | int v =>
    simp only [initAddress, HostValue.int.injEq]
    split
    · simp only [Except.ok.injEq]; omega
    · simp only [reduceCtorEq, false_iff]; omega

theorem initValue_ok {y : HostValue} {w : Word} : initValue y = .ok w ↔ y = .int w.toNat := by
  cases y with
  | notInteger => simp [initValue]
  | int v =>
    have hw := w.isLt
    simp only [initValue, HostValue.int.injEq]
    split
    · rw [Except.ok.injEq, ← BitVec.toNat_inj, BitVec.toNat_ofNat]; omega
    · simp only [reduceCtorEq, false_iff]; omega

/-- An entry is stored exactly when its address and its value pass. -/
theorem applyEntry_ok {m m' : Memory} {e : HostValue × HostValue} :
    applyEntry ceiling m e = .ok m' ↔
      ∃ (a : Nat) (w : Word), e = (.int a, .int w.toNat) ∧ a < ceiling ∧
        m' = (m.grow a).put a w := by
  obtain ⟨x, y⟩ := e
  unfold applyEntry
  split
  · next a w ha hw =>
    obtain ⟨rfl, hlt⟩ := initAddress_ok.mp ha
    obtain rfl := initValue_ok.mp hw
    constructor
    · intro h; cases h; exact ⟨a, w, rfl, hlt, rfl⟩
    · rintro ⟨b, u, he, -, rfl⟩
      simp only [Prod.mk.injEq, HostValue.int.injEq, Int.natCast_inj] at he
      obtain ⟨rfl, hu⟩ := he
      rw [BitVec.toNat_inj.mp hu]
  all_goals
    refine iff_of_false (by simp) ?_
    rintro ⟨b, u, he, hlt, -⟩
    obtain ⟨rfl, rfl⟩ := Prod.mk.inj he
    simp_all [initAddress_ok.mpr ⟨rfl, hlt⟩, initValue_ok.mpr rfl]

theorem applyEntry_of_good (m : Memory) {e : HostValue × HostValue}
    (h : addressGood ceiling e.1 ∧ valueGood e.2) : ∃ m', applyEntry ceiling m e = .ok m' := by
  obtain ⟨x, y⟩ := e
  obtain ⟨⟨a, rfl, h0, h1⟩, v, rfl, h2, h3⟩ := h
  refine ⟨_, applyEntry_ok.mpr ⟨a.toNat, BitVec.ofNat 32 v.toNat, ?_, by omega, rfl⟩⟩
  simp only [Prod.mk.injEq, HostValue.int.injEq, BitVec.toNat_ofNat]
  omega

/-! ### A description -/

/-- The entries behind an accepted prefix see the memory the prefix left. -/
theorem applyEntries_append (before after : List (HostValue × HostValue)) (m : Memory) :
    applyEntries ceiling m (before ++ after) =
      (applyEntries ceiling m before).bind fun m' => applyEntries ceiling m' after := by
  induction before generalizing m with
  | nil => rfl
  | cons e es ih =>
    simp only [List.cons_append, applyEntries]
    cases applyEntry ceiling m e with
    | error c => rfl
    | ok m' => exact ih m'

theorem applyEntries_of_good {es : List (HostValue × HostValue)} (h : entriesGood ceiling es)
    (m : Memory) : ∃ m', applyEntries ceiling m es = .ok m' := by
  induction es generalizing m with
  | nil => exact ⟨m, rfl⟩
  | cons e es ih =>
    obtain ⟨m', hm⟩ := applyEntry_of_good m (h e List.mem_cons_self)
    simp only [applyEntries, hm]
    exact ih (fun e' he => h e' (List.mem_cons_of_mem _ he)) m'

/-! ### Boot and snapshot -/

/-- What an accepted boot has passed (R156). -/
theorem boot_ok {p : Params} {r : RunInput} {s : State} :
    boot p r = .ok s ↔
      r.initMemSize ≤ p.memCeiling ∧ ∃ ps m, decodeStream r.blob = .ok ps ∧
        initialMemory p.memCeiling r.initMemSize r.initMemory = .ok m ∧
        s = { program := ps, pc := 0, stack := [], mem := m, status := .running, params := p } := by
  unfold boot
  split
  · next h => simp only [reduceCtorEq, false_iff]; omega
  · next h =>
    have hle := Nat.le_of_not_lt h
    split
    · next c hc => simp [hc]
    · next ps hps =>
      split
      · next c hc => simp [hc]
      · next m hm => simp [hps, hm, hle, eq_comm]

/-- The snapshot changes nothing but the length of memory (R57). -/
theorem takeSnapshot_ok {s t : State} {range : Int × Int} {cells : List (Nat × Word)}
    (h : takeSnapshot s range = .ok (t, cells)) :
    t = { s with mem := t.mem } ∧ ∀ a, t.mem.read a = s.mem.read a := by
  unfold takeSnapshot at h
  split at h
  · cases h
  · split at h
    · cases h
    · split at h
      · cases h; exact ⟨rfl, fun _ => rfl⟩
      · split at h
        · cases h
        · next m hm =>
          cases h
          refine ⟨rfl, fun a => ?_⟩
          by_cases hlt : (range.2 - 1).toNat < s.params.memCeiling
          · rw [Memory.ensure_of_lt _ hlt] at hm; cases hm; simp
          · rw [Memory.ensure_of_ge _ (Nat.le_of_not_lt hlt)] at hm; cases hm

end Sys2Proof.Machine
end

