-- ==== Sys2Proof/Laws/PerInstr.lean ====
section
/-!
SUPPORT. Families of statements made once per instruction (LAWS.json).
-/

/-- R69: the opcode map reads an instruction's pair back as that instruction. -/
def Sys2Proof.Laws.OpcodeMap.Statement (i : Sys2Proof.Instr) : Prop :=
  i.toPair.toInstr = .ok i

theorem Sys2Proof.Laws.OpcodeMap.loadc (b : Sys2Proof.Operand) :
    Sys2Proof.Laws.OpcodeMap.Statement (.loadc b) := rfl

theorem Sys2Proof.Laws.OpcodeMap.load (b : Sys2Proof.Operand) :
    Sys2Proof.Laws.OpcodeMap.Statement (.load b) := rfl

theorem Sys2Proof.Laws.OpcodeMap.store (b : Sys2Proof.Operand) :
    Sys2Proof.Laws.OpcodeMap.Statement (.store b) := rfl

theorem Sys2Proof.Laws.OpcodeMap.shl (b : Sys2Proof.Operand) :
    Sys2Proof.Laws.OpcodeMap.Statement (.shl b) := rfl
end

