-- ==== Sys2Proof/Laws/Step.lean ====
section
/-!
SUPPORT. What a step can do, said once (R100, R101), and the two equations of the step loop.
-/

namespace Sys2Proof.Machine

variable {s t : State}

/-- Everything a step with a next state can be: the halting transition, the fault entry of an
unknown opcode, or the instruction at the pc. -/
theorem step_cases (h : step s = .next t) :
    s.status = .running ∧
    ((s.pc = s.program.length ∧ t = { s with status := .halted }) ∨
     (∃ p a, s.program[s.pc]? = some p ∧ p.toInstr = .error (.unknownOpcode a) ∧
       t = faultState (.execution .unknownOpcode) s) ∨
     (∃ p i, s.program[s.pc]? = some p ∧ p.toInstr = .ok i ∧ exec i s = .next t)) := by
  unfold step at h
  split at h
  · cases h
  · cases h
  · next hr =>
    refine ⟨hr, ?_⟩
    split at h
    · next hp => cases h; exact .inl ⟨hp, rfl⟩
    · unfold fetch at h
      split at h
      · cases h
      · next p hp =>
        split at h
        · next r hi =>
          obtain ⟨a⟩ := r
          cases h
          exact .inr (.inl ⟨p, a, hp, hi, rfl⟩)
        · next i hi => exact .inr (.inr ⟨p, i, hp, hi, h⟩)

theorem step_of_halted (h : s.status = .halted) : step s = .fault .noStepEnabled := by
  simp [step, h]

theorem step_of_faulted {c : ErrorCause} {pc : Nat} (h : s.status = .faulted c pc) :
    step s = .fault .noStepEnabled := by
  simp [step, h]

theorem steps_succ_of_next (n : Nat) (h : step s = .next t) : steps (n + 1) s = steps n t := by
  simp [steps, h]

theorem steps_of_fault (n : Nat) {r : Fault} (h : step s = .fault r) : steps n s = s := by
  cases n <;> simp [steps, h]

end Sys2Proof.Machine
end

