-- ==== Sys2Proof/Tests/Slice0.lean ====
section
/-!
SUPPORT. The model's own tests: ill-formed terms, words and vectors of spec/95_test_vectors.md (named
beside each), and for each obligation with hypotheses a witness that meets them.
-/

namespace Sys2Proof.Tests

open Sys2Proof Sys2Proof.Machine

/-! ### Helpers -/

/-- The outcome is a next state that passes the check. -/
def nextSat (o : Host.Outcome State Fault Refusal) (f : State → Bool) : Bool :=
  match o with
  | .next t => f t
  | .fault _ => false
  | .refused _ => false

/-- The reset state with a stack (bottom first) and listed cells. -/
def st (stack : List Word) (cells : List Cell) : State :=
  { State.reset with stack := stack, mem := { cells := cells, len := 4096 } }

/-- The reset state with a program and a stack. -/
def withProgram (ps : List Pair) (stack : List Word) : State :=
  { State.reset with program := ps, stack := stack }

/-- The status after a fault at pc 0. -/
def faultedAt0 (c : ErrorCause) (t : State) : Bool :=
  decide (t.status = .faulted c 0)

/-! ### WellFormed: each check refuses an ill-formed term (R67) -/

theorem test_loadc_65536_ill_formed : (Instr.loadc 65536).wellFormed = false := by decide
theorem test_store_65536_ill_formed : (Instr.store 65536).wellFormed = false := by decide
theorem test_shl_65536_ill_formed : (Instr.shl 65536).wellFormed = false := by decide
theorem test_limits_well_formed :
    (Instr.loadc 65535).wellFormed && (Instr.load 2097151).wellFormed &&
      (Instr.store 65535).wellFormed && (Instr.shl 65535).wellFormed = true := by decide

/-! ### Decoding, from words written out bit by bit -/

/-- R60: LOADC 5 is `B = 000000000000000000101`, `A = 111`, so the bytes 2F 00 00 (vectors 2.1). -/
theorem test_decode_loadc :
    decodeInstr 0b00101111#8 0b00000000#8 0b00000000#8 = .ok (.loadc 5) := by decide
/-- LOAD 4096 is `B = 000000001000000000000`, `A = 010`, so 02 80 00 (vectors 2.1). -/
theorem test_decode_load :
    decodeInstr 0b00000010#8 0b10000000#8 0b00000000#8 = .ok (.load 4096) := by decide
/-- STORE 65535 is `B = 000001111111111111111`, `A = 011`, so FB FF 07 (vectors 2.1). -/
theorem test_decode_store :
    decodeInstr 0b11111011#8 0b11111111#8 0b00000111#8 = .ok (.store 65535) := by decide
/-- SHL 65535 is `B = 000001111111111111111`, `A = 110`, so FE FF 07 (vectors 2.1). -/
theorem test_decode_shl :
    decodeInstr 0b11111110#8 0b11111111#8 0b00000111#8 = .ok (.shl 65535) := by decide
/-- `C5 A3 01` is `(5, 13432)`, an illegal opcode (vectors 2.2). -/
theorem test_decode_illegal :
    decode 0xC5 0xA3 0x01 = { a := 5, b := 13432 } ∧
      decodeInstr 0xC5 0xA3 0x01 = .error (.unknownOpcode 5) := by decide
/-- X1: `encode(7, 1)` is 0F 00 00; `(8, 0)` and `(2, 2097152)` are refused (vectors 2.1). -/
theorem test_encode_fields :
    encodeFields 7 1 = some [0x0F, 0x00, 0x00] ∧ encodeFields 7 2097151 = some [0xFF, 0xFF, 0xFF] ∧
      encodeFields 8 0 = none ∧ encodeFields 2 2097152 = none := by decide
/-- X8: five bytes are no stream (vectors 2.3). -/
theorem test_stream_length :
    decodeStream [0x0F, 0, 0, 0, 0] = .error (.format .streamLength) ∧
      decodeStream [] = .ok [] := by decide
/-- The host's probe reads the table's LOADC row, and refuses an illegal opcode. -/
theorem test_table_word :
    decodeTableWord 24 0x00002F = some (.loadc 5) ∧ decodeTableWord 24 4 = none := by decide
/-- A placed word runs as the first instruction after reset. -/
theorem test_placed_word :
    nextSat (step (State.reset.withFetchWord 24 0x00002F))
      (fun t => decide (t.stack = [5] ∧ t.pc = 1)) = true := by decide

/-! ### The four instructions, one step each -/

/-- Vectors 2.5. -/
theorem test_loadc :
    nextSat (exec (.loadc 65535) (st [3] [])) (fun t => decide (t.stack = [3, 65535] ∧ t.pc = 1)) =
      true := by decide
/-- Vectors 2.2: out of range; and pushed as it is with the check off. -/
theorem test_loadc_operand_range :
    nextSat (exec (.loadc 65536) (st [] [])) (faultedAt0 (.validation .operandRange)) = true ∧
    nextSat (exec (.loadc 2097151)
      { st [] [] with params := { Params.default with execOperandCheck := false } })
      (fun t => decide (t.stack = [0x1FFFFF])) = true := by decide
/-- Vectors 2.6: the largest address grows memory to 2,097,152 cells. -/
theorem test_load_grows :
    nextSat (exec (.load 2097151) (st [] [(10, 7)]))
      (fun t => decide (t.stack = [0] ∧ t.mem = { cells := [(10, 7)], len := 2097152 })) = true := by
  decide
/-- Vectors 2.6, with a ceiling of 8: 7 is the last valid cell, 10 is not valid. -/
theorem test_load_ceiling :
    nextSat (exec (.load 7) { st [] [] with params := { Params.default with memCeiling := 8 } })
      (fun t => decide (t.stack = [0])) = true ∧
    nextSat (exec (.load 10) { st [] [] with params := { Params.default with memCeiling := 8 } })
      (faultedAt0 (.address .outOfRange)) = true := by decide
/-- Vectors 2.7: the address wraps to 0. -/
theorem test_store_wraps :
    nextSat (exec (.store 1) (st [42, 0xFFFFFFFF] [(0, 1), (3, 9)]))
      (fun t => decide (t.stack = [] ∧ t.mem.cells = [(0, 42), (3, 9)])) = true := by decide
/-- Vectors 2.7: base on top, value below; the last valid cell, and the one past it. -/
theorem test_store_ceiling :
    nextSat (exec (.store 0) (st [1, 2499999] []))
      (fun t => decide (t.mem = { cells := [(2499999, 1)], len := 2500000 })) = true ∧
    nextSat (exec (.store 1) (st [1, 2499999] [])) (faultedAt0 (.address .outOfRange)) = true := by
  decide
/-- Vectors 2.8: the amount is the cell's low five bits, `33 & 0x1F = 1`. -/
theorem test_shl_masks_amount :
    nextSat (exec (.shl 4) (st [1] [(5, 33)])) (fun t => decide (t.stack = [2])) = true := by decide
/-- Vectors 2.8: the address wraps to 2 and bits above bit 31 are lost. -/
theorem test_shl_wraps :
    nextSat (exec (.shl 3) (st [0xFFFFFFFF] [(2, 4)])) (fun t => decide (t.stack = [0xFFFFFFF0])) =
      true := by decide
/-- Vectors 2.9: operand range before underflow; a stack of one value underflows STORE. -/
theorem test_fault_order :
    nextSat (step (withProgram [{ a := 6, b := 131071 }] [])) (faultedAt0 (.validation .operandRange)) =
      true ∧
    nextSat (step (withProgram [{ a := 3, b := 0 }] [1])) (faultedAt0 (.execution .stackUnderflow)) =
      true := by decide
/-- Vectors 2.2: `00 00 00` when executed. -/
theorem test_unknown_opcode :
    nextSat (step (withProgram [decode 0 0 0] [])) (faultedAt0 (.execution .unknownOpcode)) = true := by
  decide

/-! ### Host operations -/

/-- Vectors 2.4: alias and normalisation; no trimming. -/
theorem test_tokens :
    mnemonicOfToken "Load-C".toList = some .loadc ∧ mnemonicOfToken "shift_left".toList = some .shl ∧
      mnemonicOfToken "NOP".toList = none ∧ mnemonicOfToken " LOADC".toList = none := by decide
/-- X3. -/
theorem test_assemble_load_limit :
    assemble (.list [.record (some "LOAD".toList) (some (.int 2097151))]) = .ok [0xFA, 0xFF, 0xFF] ∧
      assemble (.list [.record (some "LOAD".toList) (some (.int 2097152))]) =
        .error { cause := .validation .operandRange, position := .record 0 } := by decide
/-- Vectors 2.4: first failing record, and a record without an operand. -/
theorem test_assemble_first_failure :
    assemble (.list [.record (some "LOADC".toList) (some (.int 1)),
      .record (some "BAD".toList) (some (.int 0)),
      .record (some "LOADC".toList) (some (.int 70000))]) =
        .error { cause := .validation .unknownMnemonic, position := .record 1 } ∧
      assemble (.list [.record (some "STORE".toList) none]) = .ok [0x03, 0x00, 0x00] := by decide
/-- X9: a map entry beyond the initial size grows memory. -/
theorem test_run_map_wins :
    run Params.default
      { blob := [], initMemory := some (.sparse [(.int 4096, .int 5)]), snapshotRange := (4095, 4097) } =
        .finished [] (4095, 4097) [(4095, 0), (4096, 5)] := by decide
/-- Vectors 2.10: errors of the host's inputs. -/
theorem test_run_errors :
    run Params.default { blob := [], initMemory := some (.sparse [(.int 2500000, .int 1)]) } =
        .error { cause := .address .outOfRange, position := .none } ∧
      run Params.default { blob := [], initMemory := some (.sparse [(.int 3, .int 4294967296)]) } =
        .error { cause := .format .initMemory, position := .none } ∧
      run Params.default { blob := [], initMemory := some (.block none [.int 1]) } =
        .error { cause := .format .initMemory, position := .none } ∧
      run Params.default { blob := [], initMemSize := 2500001 } =
        .error { cause := .address .outOfRange, position := .none } ∧
      run Params.default { blob := [], snapshotRange := (5, 3) } =
        .error { cause := .format .snapshotRange, position := .none } ∧
      run Params.default { blob := [], snapshotRange := (0, 2500001) } =
        .error { cause := .address .outOfRange, position := .none } ∧
      run Params.default { blob := [], snapshotRange := (0, 0) } = .finished [] (0, 0) [] := by decide

/-! ### Witnesses: states and operands that meet the hypotheses of the obligations -/

theorem witness_EncodeIsDefinedOnFieldWidths :
    7 ≤ 7 ∧ 2097151 ≤ 2 ^ 21 - 1 ∧ encodeFields 7 2097151 = some [0xFF, 0xFF, 0xFF] ∧
      ¬ (8 ≤ 7 ∧ 0 ≤ 2 ^ 21 - 1) ∧ encodeFields 8 0 = none := by decide

/-- A pair at the limit of the byte bound, and one past it. -/
theorem witness_FieldsFallInBytes :
    (65535#21).toNat ≤ 65535 ∧ byteOfWord 2 (wordOfPair { a := 7, b := 65535 }) = 7#8 ∧
      byteOfWord 2 (wordOfPair { a := 7, b := 65536 }) = 8#8 := by decide

theorem witness_DecodeIsBijectionWithEncode :
    7 ≤ 7 ∧ 2097151 ≤ 2 ^ 21 - 1 ∧ decode 0xFF 0xFF 0xFF = { a := 7, b := 2097151 } := by decide

theorem witness_StreamDecodesThreeBytesPerInstruction :
    [0x0F#8, 0, 0, 0, 0].length % 3 ≠ 0 ∧ [0x0F#8, 0, 0, 3, 0, 0].length = 3 * 2 ∧
      [0x0F#8, 0, 0, 3, 0, 0][3 * 1]? = some 3 ∧ [0x0F#8, 0, 0, 3, 0, 0][3 * 1 + 1]? = some 0 ∧
      [0x0F#8, 0, 0, 3, 0, 0][3 * 1 + 2]? = some 0 ∧
      decodeStream [0x0F, 0, 0, 3, 0, 0] = .ok [{ a := 7, b := 1 }, { a := 3, b := 0 }] := by decide

/-- A token that is left as it is, white space included; the last letter of the alphabet. -/
theorem witness_TokenNormalisationIsCaseAndSeparatorBlind :
    (∀ c ∈ " LOADC".toList, c ≠ '-' ∧ c ≠ '_' ∧ ¬ (97 ≤ c.toNat ∧ c.toNat ≤ 122)) ∧
      25 < 26 ∧ Char.ofNat (97 + 25) = 'z' ∧ normaliseToken "a_z-".toList = "AZ".toList :=
  ⟨by simp, by decide, by decide, by decide⟩

theorem witness_AliasTableSelectsOpcode :
    mnemonicOfToken "ld".toList = some .load ∧ mnemonicOfToken "LOADD".toList = none ∧
      assembleElement (.record (some "LD".toList) none) = .ok { a := 2, b := 0 } := by decide

/-- Both limits of both ranges, and the values just outside. -/
theorem witness_AssemblerValidatesOperand :
    mnemonicOfToken "LOAD".toList = some .load ∧ mnemonicOfToken "SHL".toList = some .shl ∧
      (0 : Int) ≤ 65535 ∧
      assembleElement (.record (some "SHL".toList) (some (.int 65535))) =
        .ok { a := 6, b := 65535 } ∧
      assembleElement (.record (some "SHL".toList) (some (.int 65536))) =
        .error (.validation .operandRange) ∧
      assembleElement (.record (some "LOAD".toList) (some (.int (-1)))) =
        .error (.validation .operandRange) := by decide

/-- Both sides of the equivalence are met: an element that is no record after a good one. -/
theorem witness_FirstFailingRecordIsReported :
    assemble (.list [.record (some "LC".toList) none, .notRecord]) =
      .error { cause := .format .instructionList, position := .record 1 } ∧
    [Element.record (some "LC".toList) none, .notRecord][1]? = some .notRecord ∧
    assembleElement .notRecord = .error (.format .instructionList) ∧
    assembleElement (.record (some "LC".toList) none) = .ok { a := 7, b := 0 } := by decide

theorem witness_BlobConcatenatesEncodedRecords :
    assemble (.list [.record (some "LC".toList) (some (.int 1)), .record (some "ST".toList) none]) =
      .ok [0x0F, 0, 0, 0x03, 0, 0] := by decide

/-- An assembled blob that boots. -/
theorem witness_AssembledBlobsNeverFailOpcodeOrOperandChecks :
    assemble (.list [.record (some "LC".toList) (some (.int 1))]) = .ok [0x0F, 0, 0] ∧
      boot Params.default { blob := [0x0F, 0, 0] } =
        .ok (withProgram [{ a := 7, b := 1 }] []) := by decide

/-- The largest legal operand, the check on, and room for one value of capacity 1. -/
theorem witness_LoadcPushesImmediate :
    ∃ s : State, (s.params.execOperandCheck = true → (65535#21).toNat ≤ 65535) ∧
      s.params.execOperandCheck = true ∧ s.params.stackCapacity = some 1 ∧
      (∀ c, s.params.stackCapacity = some c → s.stack.length < c) :=
  ⟨{ State.reset with params := { Params.default with stackCapacity := some 1 } },
    by decide, rfl, rfl, by rintro c ⟨⟩; decide⟩

/-- The last valid cell of a ceiling of 8. -/
theorem witness_LoadPushesCell :
    ∃ s : State, absoluteAddress 7 < s.params.memCeiling ∧ s.params.memCeiling = 8 ∧
      (∀ c, s.params.stackCapacity = some c → s.stack.length < c) :=
  ⟨{ State.reset with params := { Params.default with memCeiling := 8 } },
    by decide, rfl, by rintro c ⟨⟩⟩

/-- The last valid cell, and an address that wraps. -/
theorem witness_StoreWritesOneCell :
    (st [1, 2499999] []).stack = [] ++ [1, 2499999] ∧
      offsetAddress 2499999 0 = 2499999 ∧ 2499999 < (st [1, 2499999] []).params.memCeiling ∧
      offsetAddress 0xFFFFFFFF 1 = 0 ∧ (65535#21).toNat ≤ 65535 := by decide

/-- A value that is its own base, at a wrapping address. -/
theorem witness_ShlShiftsTopByCell :
    (st [9, 0xFFFFFFFF] [(2, 4)]).stack = [9] ++ [0xFFFFFFFF] ∧
      offsetAddress 0xFFFFFFFF 3 = 2 ∧ 2 < (st [9, 0xFFFFFFFF] [(2, 4)]).params.memCeiling ∧
      (3#21).toNat ≤ 65535 := by decide

/-- The first operand out of range; and a LOAD that runs. -/
theorem witness_OperandRangeFaultsBeforeAnythingElse :
    State.reset.params.execOperandCheck = true ∧ 65535 < (65536#21).toNat ∧
      State.reset.status = .running ∧
      nextSat (exec (.load 65536) State.reset) (fun t => decide (t.stack = [0])) = true := by decide

/-- One value for STORE, none for SHL. -/
theorem witness_StackUnderflowFaults :
    (st [1] []).stack.length < 2 ∧ (st [] []).stack = [] ∧ (65535#21).toNat ≤ 65535 := by decide

/-- A full stack of capacity 1; and the unbounded default. -/
theorem witness_StackOverflowOnlyAtFiniteCapacity :
    (some 1 : Option Nat) = some (st [5] []).stack.length ∧ (65535#21).toNat ≤ 65535 ∧
      State.reset.params.stackCapacity = none ∧ State.reset.status = .running ∧
      nextSat (exec (.loadc 1) State.reset) (fun t => decide (t.stack = [1])) = true := by decide

/-- The first address that is not valid, for a LOAD and for STORE and SHL. -/
theorem witness_AddressAtCeilingFaults :
    (∃ s : State, (∀ c, s.params.stackCapacity = some c → s.stack.length < c) ∧
      s.params.memCeiling ≤ absoluteAddress 8 ∧ s.params.memCeiling = 8) ∧
    (st [1, 2500000] []).stack = [1] ++ [2500000] ∧ ([1] : List Word) ≠ [] ∧
    (st [1, 2500000] []).params.memCeiling ≤ offsetAddress 2500000 0 :=
  ⟨⟨{ State.reset with params := { Params.default with memCeiling := 8 } }, by rintro c ⟨⟩, by decide,
    rfl⟩, by decide⟩

theorem witness_IllegalOpcodeFaultsWhenReached :
    (withProgram [{ a := 5, b := 0 }] []).status = .running ∧
      (withProgram [{ a := 5, b := 0 }] []).program[(withProgram [{ a := 5, b := 0 }] []).pc]? =
        some { a := 5, b := 0 } ∧ ((5#3 = 0 ∨ 5#3 = 1) ∨ 5#3 = 4 ∨ 5#3 = 5) := by decide

/-- Each error is the first one somewhere, and none is where the instruction succeeds. -/
theorem witness_FirstApplicableErrorIsRaised :
    firstError (.store 65536) (st [] []) = some (.validation .operandRange) ∧
      firstError (.store 65535) (st [1] []) = some (.execution .stackUnderflow) ∧
      firstError (.load 0) { st [1] [] with params := { Params.default with stackCapacity := some 1 } } =
        some (.execution .stackOverflow) ∧
      firstError (.shl 0) (st [2500000] []) = some (.address .outOfRange) ∧
      firstError (.store 65535) (st [1, 1] []) = none := by decide

theorem witness_StepRunsDecodedInstruction :
    (withProgram [{ a := 3, b := 0 }] [1, 2]).status = .running ∧
      (withProgram [{ a := 3, b := 0 }] [1, 2]).program[0]? = some { a := 3, b := 0 } ∧
      (Pair.mk 3 0).toInstr = .ok (.store 0) := by decide

theorem witness_StepRunsBytesAtPc :
    decodeStream [0x0F, 0, 0, 0x03, 0, 0] =
        .ok (withProgram [{ a := 7, b := 1 }, { a := 3, b := 0 }] []).program ∧
      ({ withProgram [{ a := 7, b := 1 }, { a := 3, b := 0 }] [1, 1] with pc := 1 } : State).status =
        .running ∧
      [0x0F#8, 0, 0, 0x03, 0, 0][3 * 1]? = some 0x03 ∧ [0x0F#8, 0, 0, 0x03, 0, 0][3 * 1 + 1]? = some 0 ∧
      [0x0F#8, 0, 0, 0x03, 0, 0][3 * 1 + 2]? = some 0 ∧
      decodeInstr 0x03 0 0 = .ok (.store 0) := by decide

theorem witness_StepRunsPlacedTableWord : decodeTableWord 24 0xFFFFFA = some (.load 2097151) := by
  decide

/-- A halted state, a running one at the end of its program, and a boot of the empty blob. -/
theorem witness_HaltsAtEndOfProgram :
    ({ State.reset with status := .halted } : State).status ≠ .running ∧
      State.reset.status = .running ∧ State.reset.pc = State.reset.program.length ∧
      boot Params.default { blob := [] } = .ok State.reset := by decide

theorem witness_FaultChangesOnlyStatus :
    nextSat (step (withProgram [{ a := 3, b := 0 }] [1])) (faultedAt0 (.execution .stackUnderflow)) =
      true := by decide

/-- One step that goes on, and one that ends the run. -/
theorem witness_PcAdvancesByOneOrRunEnds :
    nextSat (step (withProgram [{ a := 7, b := 1 }] [])) (fun t => decide (t.pc = 1)) = true ∧
      nextSat (step State.reset) (fun t => decide (t.status = .halted)) = true := by decide

theorem witness_ProgramIsNeitherWrittenNorRead :
    nextSat (step (withProgram [{ a := 7, b := 1 }] [])) (fun t => decide (t.stack = [1])) = true ∧
      nextSat (exec (.store 0) (st [1, 1] [])) (fun t => decide (t.stack = [])) = true := by decide

theorem witness_MemoryGrowsMonotonically :
    nextSat (step (withProgram [{ a := 2, b := 4096 }] [])) (fun t => decide (t.mem.len = 4097)) = true ∧
      State.reset.mem.len ≤ State.reset.params.memCeiling ∧
      State.reset.mem.ensure 4097 4096 = some { cells := [], len := 4097 } := by decide

theorem witness_OnlyStoreChangesCells :
    nextSat (step (withProgram [{ a := 3, b := 0 }] [5, 3]))
      (fun t => decide (t.mem.read 3 ≠ State.reset.mem.read 3)) = true := by decide

theorem witness_DeepStackIsUntouchedAndUnread :
    [7#32].length = [8#32].length ∧ (st [7, 5, 3] []).stack = [7] ++ [5, 3] ∧
      nextSat (exec (.store 0) (st [7, 5, 3] [])) (fun t => decide (t.stack = [7])) = true := by decide

theorem witness_LoadSeesPrecedingStore :
    (st [5, 3] []).stack = [] ++ [5, 3] ∧
      nextSat (exec (.store 0) (st [5, 3] [])) (fun t => decide (t.pc = (st [5, 3] []).pc + 1)) = true ∧
      absoluteAddress 3 = offsetAddress 3 0 ∧ (st [5, 3] []).params.stackCapacity = none := by decide

theorem witness_reset_inv : State.reset.Inv :=
  ⟨by decide, by decide, by decide, (by rintro c ⟨⟩), trivial⟩

/-- The invariant at the start, and a step from there. -/
theorem witness_StepKeepsInvariant :
    (withProgram [{ a := 2, b := 4096 }] []).Inv ∧
      nextSat (step (withProgram [{ a := 2, b := 4096 }] [])) (fun t => decide (t.stack = [0])) = true :=
  ⟨⟨by decide, by decide, by decide, (by rintro c ⟨⟩), trivial⟩, by decide⟩

/-- A boot with a description, memory at its ceiling. -/
theorem witness_BootMeetsInvariant :
    boot Params.default
      { blob := [], initMemory := some (.block (some (.int 2499999)) [.int 4294967295]) } =
        .ok { State.reset with mem := { cells := [(2499999, 0xFFFFFFFF)], len := 2500000 } } := by decide

/-- One running start for each of the two ends of a run. -/
theorem witness_EveryRunEnds :
    (withProgram [{ a := 7, b := 1 }] []).status = .running ∧ (withProgram [{ a := 7, b := 1 }] []).pc = 0 ∧
      (runToEnd (withProgram [{ a := 7, b := 1 }] [])).status = .halted ∧
      (withProgram [{ a := 0, b := 0 }] []).status = .running ∧ (withProgram [{ a := 0, b := 0 }] []).pc = 0 ∧
      (runToEnd (withProgram [{ a := 0, b := 0 }] [])).status =
        .faulted (.execution .unknownOpcode) 0 := by decide

/-- The defaults of R9 and R12, the largest legal operands. -/
theorem witness_PushOnlyProgramsAreSafe :
    ∃ s : State, s.status = .running ∧ s.pc = 0 ∧ s.params.stackCapacity = none ∧
      2 ^ 21 ≤ s.params.memCeiling ∧
      s.program = [{ a := 7, b := 65535 }, { a := 2, b := 2097151 }] ∧
      ∀ q ∈ s.program, ∃ i, q.toInstr = .ok i ∧ i.wellFormed = true ∧
        ∃ b, i = .loadc b ∨ i = .load b := by
  refine ⟨withProgram [{ a := 7, b := 65535 }, { a := 2, b := 2097151 }] [], rfl, rfl, rfl,
    by decide, rfl, ?_⟩
  rintro q hq
  rcases List.mem_cons.mp hq with rfl | hq
  · exact ⟨.loadc 65535, rfl, by decide, _, .inl rfl⟩
  · rw [List.mem_singleton.mp hq]
    exact ⟨.load 2097151, rfl, by decide, _, .inr rfl⟩

theorem witness_TotalFunctionViewAgrees :
    takeSnapshot (st [] [(3, 5)]) (3, 4) = .ok (st [] [(3, 5)], [(3, 5)]) := by decide

/-- Both limits of the initial length. -/
theorem witness_MemoryLengthIsUnobservable :
    Config.initMemSizeDefault ≤ Params.default.memCeiling ∧ 2500000 ≤ Params.default.memCeiling ∧
      0 ≤ Params.default.memCeiling := by decide

/-- Either side of the ceiling, and a canonical memory with a listed cell. -/
theorem witness_EnsureGrowsToCoverAddress :
    8 ≤ 8 ∧ 7 < 8 ∧ ({ cells := [(1, 5)], len := 4 } : Memory).wf ∧ 4 ≤ 7 := by decide

theorem witness_ReadGivesLatestWrite :
    ({ cells := [(1, 5)], len := 4 } : Memory).store 8 7 9 =
        some { cells := [(1, 5), (7, 9)], len := 8 } ∧
      ({ cells := [(1, 5)], len := 4 } : Memory).store 8 1 0 = some { cells := [], len := 4 } ∧
      ({ cells := [(1, 5)], len := 4 } : Memory).wf := by decide

/-- Two cells that differ above bit 4 only. -/
theorem witness_ShiftUsesLowFiveBits :
    (33#32).extractLsb' 0 5 = (1#32).extractLsb' 0 5 ∧ 31 < 32 := by decide

/-- No description, one whose last entry for a cell counts, and good entries at the boundaries. -/
theorem witness_BootGivesStartOfRun :
    (boot Params.default { blob := [] } = .ok State.reset ∧
      boot Params.default
        { blob := [], initMemory := some (.sparse [(.int 5000, .int 1), (.int 5000, .int 2)]) } =
          .ok { State.reset with mem := { cells := [(5000, 2)], len := 5001 } } ∧
      initEntries (.sparse [(.int 5000, .int 1), (.int 5000, .int 2)]) =
        .ok ([(.int 5000, .int 1)] ++ (.int 5000, .int 2) :: [])) ∧
    entriesGood 8 [(.int 0, .int 4294967295), (.int 7, .int 0)] := by
  refine ⟨by decide, ?_⟩
  intro e he
  obtain rfl | he := List.mem_cons.mp he
  · exact ⟨⟨0, rfl, by decide⟩, 4294967295, rfl, by decide⟩
  · rw [List.mem_singleton.mp he]
    exact ⟨⟨7, rfl, by decide⟩, 0, rfl, by decide⟩

/-- An entry of a block, and refused shapes in a run that passes the checks before them. -/
theorem witness_InitialMemoryShapes :
    [HostValue.int 7, .int 8][1]? = some (.int 8) ∧
      initEntries (.block (some (.int 3)) [.int 7, .int 8]) =
        .ok [(.int 3, .int 7), (.int 4, .int 8)] ∧
      initEntries (.block (some .notInteger) []) = .error (.format .initMemory) ∧
      4096 ≤ Params.default.memCeiling ∧
      run Params.default { blob := [], initMemory := some (.block (some .notInteger) []) } =
        .error { cause := .format .initMemory, position := .none } := by decide

/-- Each clause at its boundary: the ceiling, `-1`, and `2^32`, behind one good entry, in the
sparse shape and in the block shape. -/
theorem witness_InitialMemoryValidation :
    entriesGood 8 [(.int 7, .int 4294967295)] ∧
    initEntries (.sparse ([(.int 7, .int 4294967295)] ++ (.int (-1), .int 0) :: [])) =
      .ok ([(.int 7, .int 4294967295)] ++ (.int (-1), .int 0) :: []) ∧
    initEntries (.block (some (.int 7)) [.int 4294967295, .int 0]) =
      .ok ([(.int 7, .int 4294967295)] ++ (.int 8, .int 0) :: []) ∧
    addressOutside 8 (.int 8) ∧ addressOutside 8 (.int (-1)) ∧ addressGood 8 (.int 0) ∧
    valueGood (.int 4294967295) ∧ valueBad (.int 4294967296) ∧ valueBad (.int (-1)) ∧
    valueBad .notInteger := by
  refine ⟨?_, rfl, by decide, ⟨8, rfl, by decide⟩, ⟨-1, rfl, by decide⟩, ⟨0, rfl, by decide⟩,
    ⟨4294967295, rfl, by decide⟩, .inr ⟨4294967296, rfl, by decide⟩, .inr ⟨-1, rfl, by decide⟩,
    .inl rfl⟩
  intro e he
  rw [List.mem_singleton.mp he]
  exact ⟨⟨7, rfl, by decide⟩, 4294967295, rfl, by decide⟩

/-- A block that ends at the ceiling, and one whose second pair lies beyond it. -/
theorem witness_BlockDescriptionSetsItsCells :
    (∀ (j : Nat) (y : HostValue), j < 2 → [HostValue.int 5, .int 6][j]? = some y →
      addressGood 8 (.int (6 + j)) ∧ valueGood y) ∧
    initialMemory 8 4 (some (.block (some (.int 6)) [.int 5, .int 6])) =
      .ok { cells := [(6, 5), (7, 6)], len := 8 } ∧
    initialMemory 8 4 (some (.block (some (.int 7)) [.int 5, .int 6])) =
      .error (.address .outOfRange) ∧
    initialMemory 8 4 (some (.block (some (.int 6)) [.int 5, .int 4294967296])) =
      .error (.format .initMemory) ∧
    addressOutside 8 (.int (7 + (1 : Nat))) ∧ addressGood 8 (.int (6 + (1 : Nat))) ∧
    valueBad (.int 4294967296) := by
  refine ⟨?_, by decide, by decide, by decide, ⟨8, rfl, by decide⟩, ⟨7, rfl, by decide⟩,
    .inr ⟨4294967296, rfl, by decide⟩⟩
  intro j y hj hy
  match j, hj with
  | 0, _ => cases hy; exact ⟨⟨6, rfl, by decide⟩, 5, rfl, by decide⟩
  | 1, _ => cases hy; exact ⟨⟨7, rfl, by decide⟩, 6, rfl, by decide⟩

/-- One input for each phase of `run`. -/
theorem witness_RunPhasesInOrder :
    Params.default.memCeiling < 2500001 ∧ ([0#8] : List Byte).length % 3 ≠ 0 ∧
      initialMemory 8 4 (some (.sparse [(.int 8, .int 0)])) = .error (.address .outOfRange) ∧
      boot Params.default { blob := [0x00, 0, 0] } = .ok (withProgram [{ a := 0, b := 0 }] []) ∧
      (runToEnd (withProgram [{ a := 0, b := 0 }] [])).status = .faulted (.execution .unknownOpcode) 0 ∧
      (runToEnd State.reset).status = .halted ∧
      takeSnapshot (runToEnd State.reset) (5, 3) = .error (.format .snapshotRange) ∧
      takeSnapshot (runToEnd State.reset) (0, 0) = .ok (runToEnd State.reset, []) := by decide

/-- A halted state and a range that ends at the ceiling. -/
theorem witness_SnapshotListsRange :
    ({ State.reset with status := .halted } : State).status = .halted ∧ 2499999 < 2500000 ∧
      2500000 ≤ ({ State.reset with status := .halted } : State).params.memCeiling := by decide

/-- The boundaries of each clause: one cell past the ceiling, `-1`, and the empty ranges. -/
theorem witness_SnapshotRangeErrors :
    (takeSnapshot State.reset (5, 4) = .error (.format .snapshotRange) ∧
      takeSnapshot State.reset (0, -1) = .error (.format .snapshotRange) ∧
      takeSnapshot State.reset (2500000, 2500001) = .error (.address .outOfRange) ∧
      takeSnapshot State.reset (-1, 0) = .error (.address .outOfRange) ∧
      takeSnapshot State.reset (0, 0) = .ok (State.reset, [])) ∧
    (State.reset.params.memCeiling : Int) ≤ 2500001 - 1 ∧
      ((-1 : Int) = -1 ∧ (-1 : Int) < 0) ∧ ((-2 : Int) < -1 ∧ (-1 : Int) < 0) := by
  refine ⟨⟨?_, ?_, ?_, ?_, ?_⟩, ?_⟩ <;> decide

end Sys2Proof.Tests
end

/-!
The family `10_state.md`: O31, O34, O43, O49, O37, O48. First the facts its proofs share (the one
state an instruction answers, an equation per branch of `step`, an accepted description entry by
entry, two memories that differ in their length only), then the obligations.
-/

namespace Sys2Proof.Machine

/-! ### The one state an instruction answers -/

/-- The state after an instruction that meets no error (R102 to R105). -/
def effectState (i : Instr) (s : State) : State :=
  match i with
  | .loadc b => loadcState b s
  | .load b => loadState b s
  | .store b => storeState b s.stack.dropLast.dropLast (second s) (top s) s
  | .shl b => shlState b s.stack.dropLast (top s) s

/-- The state an instruction answers: fault entry of its first error (R101), or else its effect. -/
def answerState (i : Instr) (s : State) : State :=
  (firstError i s).elim (effectState i s) fun c => faultState c s

theorem offsetAddress_eq_mod (base : Word) (b : Operand) :
    offsetAddress base b = (base.toNat + b.toNat) % 2 ^ 32 := by
  rw [offsetAddress, BitVec.toNat_add, toNat_zext32]

theorem stackFull_eq_capacityReached (s : State) :
    stackFull s = capacityReached s.params s.stack.length := rfl

theorem firstError_loadc (b : Operand) (s : State) :
    firstError (.loadc b) s =
      if operandRejected s.params b then some (.validation .operandRange)
      else if stackFull s then some (.execution .stackOverflow)
      else none := by
  rw [stackFull_eq_capacityReached]
  cases hfull : capacityReached s.params s.stack.length <;>
    simp [firstError, popCount, accessedCell, operandRejected_loadc, hfull]

theorem firstError_load (b : Operand) (s : State) :
    firstError (.load b) s =
      if stackFull s then some (.execution .stackOverflow)
      else if s.params.memCeiling ≤ absoluteAddress b then some (.address .outOfRange)
      else none := by
  rw [stackFull_eq_capacityReached, absoluteAddress]
  cases hfull : capacityReached s.params s.stack.length <;>
    simp [firstError, popCount, accessedCell, load_wellFormed, hfull]

theorem firstError_store (b : Operand) (s : State) :
    firstError (.store b) s =
      if operandRejected s.params b then some (.validation .operandRange)
      else if stackBelow 2 s then some (.execution .stackUnderflow)
      else if s.params.memCeiling ≤ offsetAddress (top s) b then some (.address .outOfRange)
      else none := by
  simp [firstError, popCount, accessedCell, operandRejected_store, stackBelow, top,
    offsetAddress_eq_mod]

theorem firstError_shl (b : Operand) (s : State) :
    firstError (.shl b) s =
      if operandRejected s.params b then some (.validation .operandRange)
      else if stackBelow 1 s then some (.execution .stackUnderflow)
      else if s.params.memCeiling ≤ offsetAddress (top s) b then some (.address .outOfRange)
      else none := by
  simp [firstError, popCount, accessedCell, operandRejected_shl, stackBelow, top,
    offsetAddress_eq_mod]

theorem execLoadc_eq (b : Operand) (s : State) :
    execLoadc b s = .next (answerState (.loadc b) s) := by
  rw [execLoadc, answerState, firstError_loadc]
  split
  · rfl
  · split <;> rfl

theorem execLoad_eq (b : Operand) (s : State) :
    execLoad b s = .next (answerState (.load b) s) := by
  rw [execLoad, answerState, firstError_load]
  split
  · rfl
  · by_cases ha : s.params.memCeiling ≤ absoluteAddress b
    · rw [Memory.load_of_ge _ ha, if_pos ha]; rfl
    · rw [Memory.load_of_lt _ (Nat.lt_of_not_le ha), if_neg ha]; rfl

theorem execStore_eq (b : Operand) (s : State) :
    execStore b s = .next (answerState (.store b) s) := by
  rw [execStore, answerState, firstError_store]
  split
  · rfl
  · split
    · rfl
    · by_cases ha : s.params.memCeiling ≤ offsetAddress (top s) b
      · rw [Memory.store_of_ge _ _ ha, if_pos ha]; rfl
      · rw [Memory.store_of_lt _ _ (Nat.lt_of_not_le ha), if_neg ha]; rfl

theorem execShl_eq (b : Operand) (s : State) :
    execShl b s = .next (answerState (.shl b) s) := by
  rw [execShl, answerState, firstError_shl]
  split
  · rfl
  · split
    · rfl
    · by_cases ha : s.params.memCeiling ≤ offsetAddress (top s) b
      · rw [Memory.load_of_ge _ ha, if_pos ha]; rfl
      · rw [Memory.load_of_lt _ (Nat.lt_of_not_le ha), if_neg ha]; rfl

/-- What an instruction does, as one equation: proofs about two runs of it compare two states. -/
theorem exec_eq (i : Instr) (s : State) : exec i s = .next (answerState i s) := by
  cases i with
  | loadc b => exact execLoadc_eq b s
  | load b => exact execLoad_eq b s
  | store b => exact execStore_eq b s
  | shl b => exact execShl_eq b s

theorem exec_next_iff {i : Instr} {s t : State} : exec i s = .next t ↔ t = answerState i s := by
  rw [exec_eq, Host.Outcome.next.injEq, eq_comm]

/-! ### The step, an equation per branch (R100, R101) -/

section Step

variable {s : State}

theorem step_of_end (hr : s.status = .running) (hp : s.pc = s.program.length) :
    step s = .next { s with status := .halted } := by
  simp [step, hr, hp, halt_eq_next]

theorem step_of_beyond (hr : s.status = .running) (hp : s.program.length < s.pc) :
    step s = .fault .pcBeyondProgram := by
  simp [step, hr, fetch, hp.ne', hp.le]

theorem step_of_unknown {p : Pair} {e : DecodeReject} (hr : s.status = .running)
    (hp : s.program[s.pc]? = some p) (hi : p.toInstr = .error e) :
    step s = .next (faultState (.execution .unknownOpcode) s) := by
  have hlt := (List.getElem?_eq_some_iff.mp hp).1
  simp [step, hr, fetch, hp, hi, hlt.ne, raise_eq_next, faultState]

theorem step_of_instr {p : Pair} {i : Instr} (hr : s.status = .running)
    (hp : s.program[s.pc]? = some p) (hi : p.toInstr = .ok i) :
    step s = .next (answerState i s) := by
  have hlt := (List.getElem?_eq_some_iff.mp hp).1
  simp [step, hr, fetch, hp, hi, hlt.ne, exec_eq]

end Step

/-! ### The program and the parameters -/

theorem answerState_program_params (i : Instr) (s : State) :
    (answerState i s).program = s.program ∧ (answerState i s).params = s.params := by
  unfold answerState
  cases firstError i s with
  | some c => exact ⟨rfl, rfl⟩
  | none => cases i <;> exact ⟨rfl, rfl⟩

/-- An instruction does not read the program: neither its errors nor its effect mention it. -/
theorem answerState_of_program (i : Instr) (s : State) (q : List Pair) :
    answerState i { s with program := q } = { answerState i s with program := q } := by
  unfold answerState
  rw [show firstError i { s with program := q } = firstError i s from rfl]
  cases firstError i s with
  | some c => rfl
  | none => cases i <;> rfl

theorem step_program_params {s t : State} (h : step s = .next t) :
    t.program = s.program ∧ t.params = s.params := by
  obtain ⟨-, ⟨-, rfl⟩ | ⟨p, a, -, -, rfl⟩ | ⟨p, i, -, -, hexec⟩⟩ := step_cases h
  · exact ⟨rfl, rfl⟩
  · exact ⟨rfl, rfl⟩
  · rw [exec_next_iff.mp hexec]
    exact answerState_program_params i s

/-! ### The stack below the top two values -/

section DeepStack

variable {s : State} {rest rest' : List Word} {y x : Word}

/-- The errors of an instruction depend on the stack by its depth and its top only. -/
theorem firstError_of_deepStack (i : Instr) (hlen : rest.length = rest'.length)
    (hs : s.stack = rest ++ [y, x]) :
    firstError i { s with stack := rest' ++ [y, x] } = firstError i s := by
  cases i <;> simp [firstError, accessedCell, hs, hlen]

/-- What the effect of an instruction leaves in the place of the top two values `y` and `x`. -/
def effectTop (i : Instr) (s : State) (y x : Word) : List Word :=
  match i with
  | .loadc b => [y, x, zext32 b]
  | .load b => [y, x, s.mem.read (absoluteAddress b)]
  | .store _ => []
  | .shl b => [y, shiftLeft x (s.mem.read (offsetAddress x b))]

theorem effectState_stack (i : Instr) (hs : s.stack = rest ++ [y, x]) :
    (effectState i s).stack = rest ++ effectTop i s y x := by
  have htop : top s = x := top_of_stack s (rest := rest ++ [y]) (by simp [hs])
  cases i <;> simp [effectState, effectTop, loadcState, loadState, storeState, shlState, hs, htop]

/-- Apart from the stack itself, the effect depends on the top two values only. -/
theorem effectState_of_deepStack (i : Instr) (hs : s.stack = rest ++ [y, x]) :
    effectState i { s with stack := rest' ++ [y, x] } =
      { effectState i s with stack := rest' ++ effectTop i s y x } := by
  have htop : top s = x := top_of_stack s (rest := rest ++ [y]) (by simp [hs])
  have hsecond : second s = y := second_of_stack s hs
  have htop' : top { s with stack := rest' ++ [y, x] } = x := by simp [top]
  have hsecond' : second { s with stack := rest' ++ [y, x] } = y := second_of_stack _ rfl
  cases i <;> simp [effectState, effectTop, loadcState, loadState, storeState, shlState, htop,
    hsecond, htop', hsecond']

end DeepStack

/-! ### Descriptions of initial memory (R151 to R154) -/

section InitialMemory

variable {ceiling : Nat} {m m' : Memory} {es : List (HostValue × HostValue)}

/-- An accepted description, entry by entry. -/
theorem applyEntries_cons_ok {e : HostValue × HostValue} :
    applyEntries ceiling m (e :: es) = .ok m' ↔
      ∃ (a : Nat) (w : Word), e = (.int a, .int w.toNat) ∧ a < ceiling ∧
        applyEntries ceiling ((m.grow a).put a w) es = .ok m' := by
  rw [applyEntries]
  constructor
  · intro h
    cases he : applyEntry ceiling m e with
    | error c => simp [he] at h
    | ok m₁ =>
      obtain ⟨a, w, rfl, ha, rfl⟩ := applyEntry_ok.mp he
      exact ⟨a, w, rfl, ha, by simpa [he] using h⟩
  · rintro ⟨a, w, rfl, ha, h⟩
    simpa [applyEntry_ok.mpr ⟨a, w, rfl, ha, rfl⟩] using h

theorem entriesGood_of_applyEntries_ok (h : applyEntries ceiling m es = .ok m') :
    entriesGood ceiling es := by
  induction es generalizing m with
  | nil => intro e he; cases he
  | cons e es ih =>
    obtain ⟨a, w, rfl, ha, hrest⟩ := applyEntries_cons_ok.mp h
    rintro e (_ | ⟨_, he⟩)
    · exact ⟨⟨a, rfl, by omega, by omega⟩, w.toNat, rfl, by omega, by have := w.isLt; omega⟩
    · exact ih hrest e he

theorem initialMemory_ok_iff {size : Nat} {d : InitMemory} :
    initialMemory ceiling size (some d) = .ok m ↔
      ∃ es, initEntries d = .ok es ∧ applyEntries ceiling { cells := [], len := size } es = .ok m := by
  rw [initialMemory]
  cases initEntries d <;> simp

/-- R154: the descriptions that are accepted. -/
theorem exists_initialMemory_ok_iff {size : Nat} {od : Option InitMemory} :
    (∃ m, initialMemory ceiling size od = .ok m) ↔
      ∀ d, od = some d → ∃ es, initEntries d = .ok es ∧ entriesGood ceiling es := by
  cases od with
  | none => exact iff_of_true ⟨_, rfl⟩ (by simp)
  | some d =>
    simp only [initialMemory_ok_iff, Option.some.injEq, forall_eq']
    constructor
    · rintro ⟨m, es, hes, h⟩
      exact ⟨es, hes, entriesGood_of_applyEntries_ok h⟩
    · rintro ⟨es, hes, hgood⟩
      obtain ⟨m, hm⟩ := applyEntries_of_good hgood { cells := [], len := size }
      exact ⟨m, es, hes, hm⟩

/-- A cell that no entry names reads as before. -/
theorem read_applyEntries_of_unnamed {a : Nat} (h : applyEntries ceiling m es = .ok m')
    (hnot : ∀ e ∈ es, e.1 ≠ .int a) : m'.read a = m.read a := by
  induction es generalizing m with
  | nil => cases h; rfl
  | cons e es ih =>
    obtain ⟨b, w, rfl, -, hrest⟩ := applyEntries_cons_ok.mp h
    have hne : a ≠ b := fun hab => hnot _ List.mem_cons_self (by rw [hab])
    rw [ih hrest fun e he => hnot e (List.mem_cons_of_mem _ he)]
    simp [hne]

/-- The last entry that names a cell is the one that counts (log 14). -/
theorem read_applyEntries_of_last {before after : List (HostValue × HostValue)} {a : Nat} {v : Int}
    (h : applyEntries ceiling m (before ++ (.int a, .int v) :: after) = .ok m')
    (hnot : ∀ e ∈ after, e.1 ≠ .int a) : ((m'.read a).toNat : Int) = v := by
  rw [applyEntries_append] at h
  cases hb : applyEntries ceiling m before with
  | error c => rw [hb] at h; cases h
  | ok m₁ =>
    rw [hb] at h
    obtain ⟨b, w, he, -, hrest⟩ := applyEntries_cons_ok.mp h
    simp only [Prod.mk.injEq, HostValue.int.injEq, Int.natCast_inj] at he
    obtain ⟨rfl, rfl⟩ := he
    rw [read_applyEntries_of_unnamed hrest hnot]
    simp

/-- `len(M)` is the least length that the initial length and the named addresses need. -/
theorem len_applyEntries_le_iff (h : applyEntries ceiling m es = .ok m') (n : Nat) :
    m'.len ≤ n ↔ m.len ≤ n ∧ ∀ (a : Nat) (v : HostValue), (HostValue.int a, v) ∈ es → a + 1 ≤ n := by
  induction es generalizing m with
  | nil => cases h; simp
  | cons e es ih =>
    obtain ⟨b, w, rfl, -, hrest⟩ := applyEntries_cons_ok.mp h
    rw [ih hrest, Memory.len_put, Memory.len_grow, Nat.max_le, and_assoc]
    refine and_congr_right fun _ => ?_
    constructor
    · rintro ⟨hb, hall⟩ a v (_ | ⟨_, hmem⟩)
      · exact hb
      · exact hall a v hmem
    · exact fun hall => ⟨hall b _ List.mem_cons_self, fun a v hmem =>
        hall a v (List.mem_cons_of_mem _ hmem)⟩

end InitialMemory

/-- R74: the length check is the only one. -/
theorem exists_decodeStream_ok_iff {blob : List Byte} :
    (∃ ps, decodeStream blob = .ok ps) ↔ blob.length % 3 = 0 := by
  rw [decodeStream]
  split <;> simp_all

theorem exists_boot_ok_iff {p : Params} {r : RunInput} :
    (∃ s, boot p r = .ok s) ↔
      r.initMemSize ≤ p.memCeiling ∧ r.blob.length % 3 = 0 ∧
        ∀ d, r.initMemory = some d → ∃ es, initEntries d = .ok es ∧ entriesGood p.memCeiling es := by
  rw [← exists_decodeStream_ok_iff, ← exists_initialMemory_ok_iff (size := r.initMemSize)]
  simp only [boot_ok]
  constructor
  · rintro ⟨s, hsize, ps, m, hps, hm, -⟩
    exact ⟨hsize, ⟨ps, hps⟩, m, hm⟩
  · rintro ⟨hsize, ⟨ps, hps⟩, m, hm⟩
    exact ⟨_, hsize, ps, m, hps, hm, rfl⟩

/-! ### Two memories that differ in their length only -/

/-- The memory with another hidden length. -/
def Memory.withLen (m : Memory) (n : Nat) : Memory :=
  { m with len := n }

/-- The state with another hidden memory length. -/
def State.withLen (s : State) (n : Nat) : State :=
  { s with mem := s.mem.withLen n }

/-- Two computations fail with one error, or both succeed with related results. -/
def AgreeUpTo {ε α : Type} (R : α → α → Prop) (x y : Except ε α) : Prop :=
  (∃ c, x = .error c ∧ y = .error c) ∨ ∃ a b, x = .ok a ∧ y = .ok b ∧ R a b

/-- The same cells, whatever the length. -/
def Memory.SameCells (m m' : Memory) : Prop :=
  ∃ n, m' = m.withLen n

/-- The same state but for the length of memory. -/
def State.SameUpToLen (s s' : State) : Prop :=
  ∃ n, s' = s.withLen n

section WithLen

variable (s : State) (m : Memory) (n : Nat)

@[simp] theorem Memory.read_withLen (a : Nat) : (m.withLen n).read a = m.read a := rfl

@[simp] theorem State.withLen_status : (s.withLen n).status = s.status := rfl

@[simp] theorem State.withLen_params : (s.withLen n).params = s.params := rfl

@[simp] theorem State.withLen_mem : (s.withLen n).mem = s.mem.withLen n := rfl

@[simp] theorem State.withLen_top : top (s.withLen n) = top s := rfl

theorem Memory.grow_eq (a : Nat) : m.grow a = { m with len := max m.len (a + 1) } := by
  rw [← Memory.len_grow, ← Memory.cells_grow m a]

theorem Memory.grow_withLen (a : Nat) : (m.withLen n).grow a = (m.grow a).withLen (max n (a + 1)) := by
  rw [Memory.grow_eq, Memory.grow_eq]
  rfl

theorem effectState_withLen (i : Instr) :
    (effectState i s).SameUpToLen (effectState i (s.withLen n)) := by
  cases i with
  | loadc b => exact ⟨n, rfl⟩
  | load b =>
    refine ⟨max n (absoluteAddress b + 1), ?_⟩
    simp only [effectState, loadState, State.withLen_mem, Memory.grow_withLen]
    rfl
  | store b =>
    refine ⟨max n (offsetAddress (top s) b + 1), ?_⟩
    simp only [effectState, storeState, State.withLen_top, State.withLen_mem, Memory.grow_withLen]
    rfl
  | shl b =>
    refine ⟨max n (offsetAddress (top s) b + 1), ?_⟩
    simp only [effectState, shlState, State.withLen_top, State.withLen_mem, Memory.grow_withLen]
    rfl

/-- No error of an instruction depends on memory, and its effect keeps the difference to the
length. -/
theorem answerState_withLen (i : Instr) :
    (answerState i s).SameUpToLen (answerState i (s.withLen n)) := by
  unfold answerState
  rw [show firstError i (s.withLen n) = firstError i s from rfl]
  cases firstError i s with
  | some c => exact ⟨n, rfl⟩
  | none => exact effectState_withLen s n i

/-- A step is enabled at one length exactly when it is at another, and keeps the difference to the
length. -/
theorem step_withLen :
    (∃ r, step s = .fault r ∧ step (s.withLen n) = .fault r) ∨
      ∃ t t', step s = .next t ∧ step (s.withLen n) = .next t' ∧ t.SameUpToLen t' := by
  cases hr : s.status with
  | halted => exact .inl ⟨_, step_of_halted hr, step_of_halted hr⟩
  | faulted c pc => exact .inl ⟨_, step_of_faulted hr, step_of_faulted hr⟩
  | running =>
    cases hp : s.program[s.pc]? with
    | none =>
      obtain hend | hbeyond := (List.getElem?_eq_none_iff.mp hp).eq_or_lt
      · exact .inr ⟨_, _, step_of_end hr hend.symm, step_of_end hr hend.symm, n, rfl⟩
      · exact .inl ⟨_, step_of_beyond hr hbeyond, step_of_beyond hr hbeyond⟩
    | some p =>
      cases hi : p.toInstr with
      | error e => exact .inr ⟨_, _, step_of_unknown hr hp hi, step_of_unknown hr hp hi, n, rfl⟩
      | ok i =>
        exact .inr ⟨_, _, step_of_instr hr hp hi, step_of_instr hr hp hi, answerState_withLen s n i⟩

theorem steps_withLen (k : Nat) : (steps k s).SameUpToLen (steps k (s.withLen n)) := by
  induction k generalizing s n with
  | zero => exact ⟨n, rfl⟩
  | succ k ih =>
    obtain ⟨r, h, h'⟩ | ⟨t, t', h, h', n', rfl⟩ := step_withLen s n
    · rw [steps_of_fault _ h, steps_of_fault _ h']
      exact ⟨n, rfl⟩
    · rw [steps_succ_of_next k h, steps_succ_of_next k h']
      exact ih t n'

theorem runToEnd_withLen : (runToEnd s).SameUpToLen (runToEnd (s.withLen n)) :=
  steps_withLen s n _

theorem takeSnapshot_withLen (range : Int × Int) :
    AgreeUpTo (fun x y => x.1.stack = y.1.stack ∧ x.2 = y.2)
      (takeSnapshot s range) (takeSnapshot (s.withLen n) range) := by
  unfold takeSnapshot
  split
  · exact .inl ⟨_, rfl, rfl⟩
  · split
    · exact .inl ⟨_, rfl, rfl⟩
    · split
      · exact .inr ⟨_, _, rfl, rfl, rfl, rfl⟩
      · by_cases ha : (range.2 - 1).toNat < s.params.memCeiling
        · rw [State.withLen_params, Memory.ensure_of_lt _ ha, Memory.ensure_of_lt _ ha]
          exact .inr ⟨_, _, rfl, rfl, rfl, by simp⟩
        · have hge := Nat.le_of_not_lt ha
          rw [State.withLen_params, Memory.ensure_of_ge _ hge, Memory.ensure_of_ge _ hge]
          exact .inl ⟨_, rfl, rfl⟩

theorem runResult_withLen (range : Int × Int) :
    runResult (s.withLen n) range = runResult s range := by
  unfold runResult
  rw [State.withLen_status]
  cases s.status with
  | running => rfl
  | faulted c pc => rfl
  | halted =>
    obtain ⟨c, h, h'⟩ | ⟨⟨t, cells⟩, ⟨t', cells'⟩, h, h', hstack, hcells⟩ :=
      takeSnapshot_withLen s n range
    · simp [h, h']
    · simp_all

theorem applyEntry_withLen (ceiling : Nat) (e : HostValue × HostValue) :
    AgreeUpTo Memory.SameCells (applyEntry ceiling m e) (applyEntry ceiling (m.withLen n) e) := by
  unfold applyEntry
  cases initAddress ceiling e.1 with
  | error c => cases initValue e.2 <;> exact .inl ⟨_, rfl, rfl⟩
  | ok a =>
    cases initValue e.2 with
    | error d => exact .inl ⟨_, rfl, rfl⟩
    | ok v =>
      refine .inr ⟨_, _, rfl, rfl, max n (a + 1), ?_⟩
      rw [Memory.grow_withLen]
      rfl

theorem applyEntries_withLen (ceiling : Nat) (es : List (HostValue × HostValue)) :
    AgreeUpTo Memory.SameCells (applyEntries ceiling m es)
      (applyEntries ceiling (m.withLen n) es) := by
  induction es generalizing m n with
  | nil => exact .inr ⟨_, _, rfl, rfl, n, rfl⟩
  | cons e es ih =>
    obtain ⟨c, h, h'⟩ | ⟨m₁, _, h, h', n', rfl⟩ := applyEntry_withLen m n ceiling e
    · simp only [applyEntries, h, h']
      exact .inl ⟨_, rfl, rfl⟩
    · simp only [applyEntries, h, h']
      exact ih m₁ n'

end WithLen

theorem initialMemory_sameCells (ceiling size n : Nat) (od : Option InitMemory) :
    AgreeUpTo Memory.SameCells (initialMemory ceiling size od) (initialMemory ceiling n od) := by
  cases od with
  | none => exact .inr ⟨_, _, rfl, rfl, n, rfl⟩
  | some d =>
    cases hes : initEntries d with
    | error c => exact .inl ⟨c, by simp [initialMemory, hes], by simp [initialMemory, hes]⟩
    | ok es =>
      simp only [initialMemory, hes]
      exact applyEntries_withLen _ n ceiling es

theorem boot_sameUpToLen {p : Params} {r : RunInput} {n : Nat}
    (hsize : r.initMemSize ≤ p.memCeiling) (hn : n ≤ p.memCeiling) :
    AgreeUpTo State.SameUpToLen (boot p r) (boot p { r with initMemSize := n }) := by
  unfold boot
  rw [if_neg hsize.not_gt, if_neg hn.not_gt]
  cases decodeStream r.blob with
  | error c => exact .inl ⟨_, rfl, rfl⟩
  | ok ps =>
    obtain ⟨c, h, h'⟩ | ⟨m, _, h, h', n', rfl⟩ :=
      initialMemory_sameCells p.memCeiling r.initMemSize n r.initMemory
    · simp only [h, h']
      exact .inl ⟨_, rfl, rfl⟩
    · simp only [h, h']
      exact .inr ⟨_, _, rfl, rfl, n', rfl⟩

/-! ### The obligations -/

/-- Settles O31: the errors and the effect of an instruction do not mention the program. -/
theorem programIsNeitherWrittenNorRead : Obligations.ProgramIsNeitherWrittenNorRead := by
  refine ⟨fun s t h => step_program_params h, fun i s t q h => ?_⟩
  rw [exec_eq, answerState_of_program, exec_next_iff.mp h]

/-- Settles O34: the errors depend on the depth and the top, the effect on the top two values. -/
theorem deepStackIsUntouchedAndUnread : Obligations.DeepStackIsUntouchedAndUnread := by
  intro i s t rest rest' y x hlen hs h
  obtain rfl := exec_next_iff.mp h
  rw [exec_eq]
  unfold answerState
  rw [firstError_of_deepStack i hlen hs]
  cases firstError i s with
  | some c => exact ⟨[y, x], hs, rfl⟩
  | none =>
    exact ⟨effectTop i s y x, effectState_stack i hs,
      congrArg Host.Outcome.next (effectState_of_deepStack i hs)⟩

/-- Settles O43: boot, steps and result keep the two runs equal up to the length of memory. -/
theorem memoryLengthIsUnobservable : Obligations.MemoryLengthIsUnobservable := by
  intro p r n hsize hn
  unfold run
  obtain ⟨c, h, h'⟩ | ⟨s, _, h, h', n', rfl⟩ := boot_sameUpToLen hsize hn
  · simp only [h, h']
  · simp only [h, h']
    obtain ⟨k, hk⟩ := runToEnd_withLen s n'
    rw [hk, runResult_withLen]

/-- Settles O49, by what an accepted description does to the cells and to the length. -/
theorem bootGivesStartOfRun : Obligations.BootGivesStartOfRun := by
  refine ⟨fun p r => exists_boot_ok_iff, fun p r s hboot => ?_⟩
  obtain ⟨-, ps, m, hps, hm, rfl⟩ := boot_ok.mp hboot
  refine ⟨rfl, rfl, rfl, rfl, hps, fun hnone => ?_, fun d es hd hes => ?_⟩
  · rw [hnone] at hm
    cases hm
    exact ⟨rfl, fun _ => rfl⟩
  · rw [hd] at hm
    obtain ⟨es', hes', happly⟩ := initialMemory_ok_iff.mp hm
    obtain rfl : es = es' := Except.ok.inj (hes.symm.trans hes')
    refine ⟨fun a hnot => read_applyEntries_of_unnamed happly hnot, ?_,
      len_applyEntries_le_iff happly⟩
    rintro before after a v rfl hnot
    exact read_applyEntries_of_last happly hnot

/-- Settles O37: memory is canonical and within its ceiling, and the stack and program are empty. -/
theorem resetMeetsInvariant : Obligations.ResetMeetsInvariant where
  memWf := reset_memory_wf
  lenBound := by decide
  pcBound := Nat.le_refl 0
  stackBound := by rintro c ⟨⟩
  coherent := trivial

/-- Settles O48: `State.reset` is written with these values, and no cell is listed. -/
theorem resetState : Obligations.ResetState :=
  ⟨rfl, rfl, rfl, rfl, fun _ => rfl, rfl, rfl, rfl, rfl⟩

end Sys2Proof.Machine

/-!
The family `20_memory.md`: O36, O42, O32, O33, O35, O45, O22, O44, O53, O54. First the facts its
proofs share (when a memory operation succeeds, what an instruction answers, what a step
does to memory, to the stack bound, to the pc and the status, one instruction and one step
in the view of R44, the snapshot of a valid range), then the obligations.
-/

namespace Sys2Proof.Machine

/-! ### Memory: where an operation succeeds, and what it gives (R16, R42) -/

section MemoryOps

variable {ceiling a : Nat} {m m' : Memory}

theorem Memory.ensure_eq_some_iff : m.ensure ceiling a = some m' ↔ a < ceiling ∧ m' = m.grow a := by
  by_cases ha : a < ceiling
  · simp [Memory.ensure_of_lt m ha, ha, eq_comm]
  · simp [Memory.ensure_of_ge m (Nat.le_of_not_lt ha), ha]

theorem Memory.store_eq_some_iff {v : Word} :
    m.store ceiling a v = some m' ↔ a < ceiling ∧ m' = (m.grow a).put a v := by
  by_cases ha : a < ceiling
  · simp [Memory.store_of_lt m v ha, ha, eq_comm]
  · simp [Memory.store_of_ge m v (Nat.le_of_not_lt ha), ha]

theorem Memory.grow_of_lt (h : a < m.len) : m.grow a = m := by
  rw [Memory.grow_eq, Nat.max_eq_left h]

theorem Memory.len_grow_le {n : Nat} (hlen : m.len ≤ n) (ha : a < n) : (m.grow a).len ≤ n := by
  rw [Memory.len_grow]
  omega

theorem lookupCell_of_unlisted {l : List Cell} (h : ∀ c ∈ l, c.1 ≠ a) : lookupCell l a = 0 := by
  induction l with
  | nil => rfl
  | cons c rest ih =>
    rw [lookupCell, if_neg (h c List.mem_cons_self).symm]
    exact ih fun d hd => h d (List.mem_cons_of_mem _ hd)

/-- A canonical memory reads 0 beyond its end (R42). -/
theorem Memory.read_of_len_le (h : m.wf) (ha : m.len ≤ a) : m.read a = 0 :=
  lookupCell_of_unlisted fun c hc => by
    have := (h.2 c hc).2
    omega

end MemoryOps

/-! ### An instruction with its first error, and without one (R101) -/

section Instruction

variable {i : Instr} {b : Operand} {s t : State}

theorem stackFull_eq_false_iff :
    stackFull s = false ↔ ∀ c, s.params.stackCapacity = some c → s.stack.length < c := by
  simp [← Bool.not_eq_true, stackFull_iff]

theorem exec_of_firstError {c : ErrorCause} (h : firstError i s = some c) :
    exec i s = .next (faultState c s) := by
  rw [exec_eq, answerState, h]
  rfl

theorem exec_load_of_room (hroom : stackFull s = false)
    (ha : absoluteAddress b < s.params.memCeiling) : exec (.load b) s = .next (loadState b s) := by
  rw [exec_eq, answerState, firstError_load, hroom, if_neg (by simp), if_neg ha.not_ge]
  rfl

/-- A STORE that advances the pc has completed: its address was below the ceiling. -/
theorem exec_store_of_pc_succ {rest : List Word} {value base : Word}
    (hs : s.stack = rest ++ [value, base]) (h : exec (.store b) s = .next t)
    (hpc : t.pc = s.pc + 1) :
    offsetAddress base b < s.params.memCeiling ∧ t = storeState b rest value base s := by
  obtain ⟨c, rfl⟩ | ⟨rest', value', base', -, hs', ha, rfl⟩ := execStore_cases h
  · exact absurd hpc (Nat.ne_of_lt (Nat.lt_succ_self s.pc))
  · obtain ⟨rfl, htwo⟩ := List.append_inj' (hs.symm.trans hs') rfl
    obtain ⟨rfl, rfl⟩ : value = value' ∧ base = base' := by simpa using htwo
    exact ⟨ha, rfl⟩

theorem top_of_two {rest : List Word} {value base : Word} (hs : s.stack = rest ++ [value, base]) :
    top s = base :=
  top_of_stack s (rest := rest ++ [value]) (by simp [hs])

theorem effectState_store {rest : List Word} {value base : Word}
    (hs : s.stack = rest ++ [value, base]) :
    effectState (.store b) s = storeState b rest value base s := by
  simp [effectState, top_of_two hs, second_of_stack s hs, hs]

theorem effectState_shl {rest : List Word} {x : Word} (hs : s.stack = rest ++ [x]) :
    effectState (.shl b) s = shlState b rest x s := by
  simp [effectState, top_of_stack s hs, hs]

end Instruction

/-! ### What a step does to memory (R40, R43, R47) -/

section StepMemory

variable {s t : State}

/-- The three things an instruction can do to memory: nothing, growth below the ceiling, or the
write of a STORE. -/
theorem exec_mem_cases {i : Instr} (h : exec i s = .next t) :
    t.mem = s.mem ∨ (∃ a < s.params.memCeiling, t.mem = s.mem.grow a) ∨
    ∃ b rest value base, i = .store b ∧ s.stack = rest ++ [value, base] ∧
      offsetAddress base b < s.params.memCeiling ∧
      t.mem = (s.mem.grow (offsetAddress base b)).put (offsetAddress base b) value := by
  obtain ⟨c, rfl⟩ | ⟨b, -, -, -, rfl⟩ | ⟨b, -, -, ha, rfl⟩ | ⟨b, rest, value, base, hi, -, hs, ha, rfl⟩ |
    ⟨b, rest, x, -, -, -, ha, rfl⟩ := exec_cases h
  · exact .inl rfl
  · exact .inl rfl
  · exact .inr (.inl ⟨_, ha, rfl⟩)
  · exact .inr (.inr ⟨b, rest, value, base, hi, hs, ha, rfl⟩)
  · exact .inr (.inl ⟨_, ha, rfl⟩)

/-- The same of a step, with the STORE at the pc. -/
theorem step_mem_cases (h : step s = .next t) :
    t.mem = s.mem ∨ (∃ a < s.params.memCeiling, t.mem = s.mem.grow a) ∨
    ∃ p b rest value base, s.program[s.pc]? = some p ∧ p.toInstr = .ok (.store b) ∧
      s.stack = rest ++ [value, base] ∧ offsetAddress base b < s.params.memCeiling ∧
      t.mem = (s.mem.grow (offsetAddress base b)).put (offsetAddress base b) value := by
  obtain ⟨-, ⟨-, rfl⟩ | ⟨p, a, -, -, rfl⟩ | ⟨p, i, hp, hi, hexec⟩⟩ := step_cases h
  · exact .inl rfl
  · exact .inl rfl
  · obtain hm | hm | ⟨b, rest, value, base, rfl, hm⟩ := exec_mem_cases hexec
    · exact .inl hm
    · exact .inr (.inl hm)
    · exact .inr (.inr ⟨p, b, rest, value, base, hp, hi, hm⟩)

theorem step_len_mono (h : step s = .next t) : s.mem.len ≤ t.mem.len := by
  obtain hm | ⟨a, -, hm⟩ | ⟨p, b, rest, value, base, -, -, -, -, hm⟩ := step_mem_cases h <;> simp [hm]

theorem step_len_le_ceiling (h : step s = .next t) (hlen : s.mem.len ≤ s.params.memCeiling) :
    t.mem.len ≤ s.params.memCeiling := by
  obtain hm | ⟨a, ha, hm⟩ | ⟨p, b, rest, value, base, -, -, -, ha, hm⟩ := step_mem_cases h
  · rwa [hm]
  · rw [hm]
    exact Memory.len_grow_le hlen ha
  · rw [hm, Memory.len_put]
    exact Memory.len_grow_le hlen ha

theorem step_mem_wf (h : step s = .next t) (hwf : s.mem.wf) : t.mem.wf := by
  obtain hm | ⟨a, -, hm⟩ | ⟨p, b, rest, value, base, -, -, -, -, hm⟩ := step_mem_cases h
  · rwa [hm]
  · rw [hm]
    exact Memory.wf_grow a hwf
  · rw [hm]
    exact Memory.wf_put value (Memory.wf_grow _ hwf) (by simp)

end StepMemory

/-! ### The invariant -/

section Invariant

variable {s t : State}

theorem exec_stackInBounds {i : Instr} (h : exec i s = .next t) (hb : s.stackInBounds) :
    t.stackInBounds := by
  obtain ⟨c, rfl⟩ | ⟨b, -, -, hfull, rfl⟩ | ⟨b, -, hfull, -, rfl⟩ |
    ⟨b, rest, value, base, -, -, hs, -, rfl⟩ | ⟨b, rest, x, -, -, hs, -, rfl⟩ := exec_cases h <;>
    intro k hk
  · exact hb k hk
  · simpa [loadcState] using stackFull_eq_false_iff.mp hfull k hk
  · simpa [loadState] using stackFull_eq_false_iff.mp hfull k hk
  · have := hb k hk
    simp only [hs, List.length_append, List.length_cons] at this
    simp only [storeState]
    omega
  · simpa [shlState, hs] using hb k hk

theorem step_stackInBounds (h : step s = .next t) (hb : s.stackInBounds) : t.stackInBounds := by
  obtain ⟨-, ⟨-, rfl⟩ | ⟨p, a, -, -, rfl⟩ | ⟨p, i, -, -, hexec⟩⟩ := step_cases h
  · exact hb
  · exact hb
  · exact exec_stackInBounds hexec hb

/-- An instruction ends in a fault at its own pc, or completes and advances the pc. -/
theorem exec_pc_status_cases {i : Instr} (h : exec i s = .next t) :
    (t.pc = s.pc ∧ ∃ c, t.status = .faulted c s.pc) ∨ (t.pc = s.pc + 1 ∧ t.status = s.status) := by
  obtain ⟨c, rfl⟩ | ⟨b, -, -, -, rfl⟩ | ⟨b, -, -, -, rfl⟩ | ⟨b, rest, value, base, -, -, -, -, rfl⟩ |
    ⟨b, rest, x, -, -, -, -, rfl⟩ := exec_cases h
  · exact .inl ⟨rfl, c, rfl⟩
  all_goals exact .inr ⟨rfl, rfl⟩

/-- R25, R100, R133: a step halts at the end of the program, faults at an instruction of it, or
completes one. -/
theorem step_pc_status_cases (h : step s = .next t) :
    (s.pc = s.program.length ∧ t.pc = s.pc ∧ t.status = .halted) ∨
    (s.pc < s.program.length ∧ t.pc = s.pc ∧ ∃ c, t.status = .faulted c s.pc) ∨
    (s.pc < s.program.length ∧ t.pc = s.pc + 1 ∧ t.status = .running) := by
  obtain ⟨hr, ⟨hend, rfl⟩ | ⟨p, a, hp, -, rfl⟩ | ⟨p, i, hp, -, hexec⟩⟩ := step_cases h
  · exact .inl ⟨hend, rfl, rfl⟩
  · exact .inr (.inl ⟨(List.getElem?_eq_some_iff.mp hp).1, rfl, _, rfl⟩)
  · have hlt := (List.getElem?_eq_some_iff.mp hp).1
    obtain hfault | ⟨hpc, hst⟩ := exec_pc_status_cases hexec
    · exact .inr (.inl ⟨hlt, hfault⟩)
    · exact .inr (.inr ⟨hlt, hpc, hst.trans hr⟩)

theorem step_pc_le_and_coherent (h : step s = .next t) :
    t.pc ≤ t.program.length ∧ t.statusCoherent := by
  rw [State.statusCoherent, (step_program_params h).1]
  obtain ⟨hend, hpc, hst⟩ | ⟨hlt, hpc, c, hst⟩ | ⟨hlt, hpc, hst⟩ := step_pc_status_cases h <;>
    rw [hpc, hst]
  · exact ⟨hend.le, hend⟩
  · exact ⟨hlt.le, rfl, hlt⟩
  · exact ⟨hlt, trivial⟩

end Invariant

/-! ### One instruction in the view of R44 -/

section FlatView

variable {s : State}

theorem flatView_faultState (c : ErrorCause) :
    flatView (faultState c s) = flatFault c (flatView s) := rfl

@[simp] theorem flatView_stack : (flatView s).stack = s.stack.reverse := rfl

theorem flatView_storeState (b : Operand) (rest : List Word) (value base : Word) :
    flatView (storeState b rest value base s) =
      { flatView s with
        stack := rest.reverse
        mem := fun a => if a = offsetAddress base b then value else s.mem.read a
        pc := s.pc + 1 } := by
  simp only [flatView, storeState, FlatState.mk.injEq, true_and, and_true]
  funext a
  simp

theorem flatView_shlState (b : Operand) (rest : List Word) (x : Word) :
    flatView (shlState b rest x s) =
      { flatView s with
        stack := shiftLeft x (s.mem.read (offsetAddress x b)) :: rest.reverse
        pc := s.pc + 1 } := by
  simp only [flatView, shlState, List.reverse_concat, FlatState.mk.injEq, true_and, and_true]
  funext a
  simp

theorem toNat_opcode_of_toInstr_error {q : Pair} {e : DecodeReject} (h : q.toInstr = .error e) :
    q.a.toNat ≠ 2 ∧ q.a.toNat ≠ 3 ∧ q.a.toNat ≠ 6 ∧ q.a.toNat ≠ 7 := by
  refine ⟨?_, ?_, ?_, ?_⟩ <;> intro ha
  · simp [Pair.toInstr, BitVec.eq_of_toNat_eq (y := 2#3) ha] at h
  · simp [Pair.toInstr, BitVec.eq_of_toNat_eq (y := 3#3) ha] at h
  · simp [Pair.toInstr, BitVec.eq_of_toNat_eq (y := 6#3) ha] at h
  · simp [Pair.toInstr, BitVec.eq_of_toNat_eq (y := 7#3) ha] at h

theorem ofNat_mul_pow_eq_shiftLeft (x m : Word) :
    BitVec.ofNat 32 (x.toNat * 2 ^ (m.toNat % 32)) = shiftLeft x m :=
  BitVec.eq_of_toNat_eq (by
    rw [shiftLeft, shiftAmount_eq_mod, BitVec.toNat_shiftLeft, Nat.shiftLeft_eq, BitVec.toNat_ofNat])

/-- LOADC in the view of R44, in the model's words. -/
theorem flatExec_loadc (p : Params) (b : Operand) (f : FlatState) :
    flatExec p 7 b.toNat f =
      if operandRejected p b then flatFault (.validation .operandRange) f
      else if capacityReached p f.stack.length then flatFault (.execution .stackOverflow) f
      else { f with stack := zext32 b :: f.stack, pc := f.pc + 1 } := by
  simp [flatExec, operandRejected_iff, zext32]

theorem flatExec_load (p : Params) (b : Operand) (f : FlatState) :
    flatExec p 2 b.toNat f =
      if capacityReached p f.stack.length then flatFault (.execution .stackOverflow) f
      else if p.memCeiling ≤ absoluteAddress b then flatFault (.address .outOfRange) f
      else { f with stack := f.mem (absoluteAddress b) :: f.stack, pc := f.pc + 1 } := by
  show flatExec p 2 (absoluteAddress b) f = _
  simp [flatExec]

theorem flatExec_store_of_two {f : FlatState} {rest : List Word} {base value : Word} (p : Params)
    (b : Operand) (hs : f.stack = base :: value :: rest) :
    flatExec p 3 b.toNat f =
      if operandRejected p b then flatFault (.validation .operandRange) f
      else if p.memCeiling ≤ offsetAddress base b then flatFault (.address .outOfRange) f
      else
        { f with
          stack := rest
          mem := fun a => if a = offsetAddress base b then value else f.mem a
          pc := f.pc + 1 } := by
  simp [flatExec, hs, operandRejected_iff, offsetAddress_eq_mod]

theorem flatExec_store_of_short {f : FlatState} (p : Params) (b : Operand)
    (hs : f.stack.length < 2) :
    flatExec p 3 b.toNat f =
      if operandRejected p b then flatFault (.validation .operandRange) f
      else flatFault (.execution .stackUnderflow) f := by
  match h : f.stack with
  | [] => simp [flatExec, h, operandRejected_iff]
  | [x] => simp [flatExec, h, operandRejected_iff]
  | _ :: _ :: _ => simp [h] at hs

theorem flatExec_shl_of_one {f : FlatState} {rest : List Word} {x : Word} (p : Params)
    (b : Operand) (hs : f.stack = x :: rest) :
    flatExec p 6 b.toNat f =
      if operandRejected p b then flatFault (.validation .operandRange) f
      else if p.memCeiling ≤ offsetAddress x b then flatFault (.address .outOfRange) f
      else { f with stack := shiftLeft x (f.mem (offsetAddress x b)) :: rest, pc := f.pc + 1 } := by
  simp [flatExec, hs, operandRejected_iff, offsetAddress_eq_mod, ofNat_mul_pow_eq_shiftLeft]

theorem flatExec_shl_of_empty {f : FlatState} (p : Params) (b : Operand) (hs : f.stack = []) :
    flatExec p 6 b.toNat f =
      if operandRejected p b then flatFault (.validation .operandRange) f
      else flatFault (.execution .stackUnderflow) f := by
  simp [flatExec, hs, operandRejected_iff]

theorem flatExec_flatView_loadc (b : Operand) :
    flatExec s.params 7 b.toNat (flatView s) = flatView (answerState (.loadc b) s) := by
  rw [flatExec_loadc, answerState, firstError_loadc, stackFull_eq_capacityReached, flatView_stack,
    List.length_reverse]
  split
  · rfl
  · split
    · rfl
    · simp [effectState, loadcState, flatView]

theorem flatExec_flatView_load (b : Operand) :
    flatExec s.params 2 b.toNat (flatView s) = flatView (answerState (.load b) s) := by
  rw [flatExec_load, answerState, firstError_load, stackFull_eq_capacityReached, flatView_stack,
    List.length_reverse]
  split
  · rfl
  · split
    · rfl
    · have hread : (s.mem.grow (absoluteAddress b)).read = s.mem.read :=
        funext (Memory.read_grow s.mem _)
      simp [effectState, loadState, flatView, hread]

theorem flatExec_flatView_store (b : Operand) :
    flatExec s.params 3 b.toNat (flatView s) = flatView (answerState (.store b) s) := by
  rw [answerState, firstError_store]
  cases hb : stackBelow 2 s with
  | true =>
    rw [flatExec_store_of_short _ _ (by simpa using (stackBelow_iff s 2).mp hb)]
    split <;> rfl
  | false =>
    obtain ⟨rest, value, base, hs⟩ := exists_top_two_of_not_below s hb
    rw [flatExec_store_of_two (rest := rest.reverse) (base := base) (value := value) _ _
      (by simp [hs]), effectState_store hs, top_of_two hs]
    split
    · rfl
    · rw [if_neg Bool.false_ne_true]
      split
      · rfl
      · exact (flatView_storeState b rest value base).symm

theorem flatExec_flatView_shl (b : Operand) :
    flatExec s.params 6 b.toNat (flatView s) = flatView (answerState (.shl b) s) := by
  rw [answerState, firstError_shl]
  cases hb : stackBelow 1 s with
  | true =>
    rw [flatExec_shl_of_empty _ _ (by simpa using (stackBelow_iff s 1).mp hb)]
    split <;> rfl
  | false =>
    obtain ⟨rest, x, hs⟩ := exists_top_of_not_below s hb
    rw [flatExec_shl_of_one (rest := rest.reverse) (x := x) _ _ (by simp [hs]), effectState_shl hs,
      top_of_stack s hs]
    split
    · rfl
    · rw [if_neg Bool.false_ne_true]
      split
      · rfl
      · exact (flatView_shlState b rest x).symm

/-- One instruction commutes with the view, its errors included. -/
theorem flatExec_flatView (i : Instr) (s : State) :
    flatExec s.params i.toPair.a.toNat i.toPair.b.toNat (flatView s) =
      flatView (answerState i s) := by
  cases i with
  | loadc b => exact flatExec_flatView_loadc b
  | load b => exact flatExec_flatView_load b
  | store b => exact flatExec_flatView_store b
  | shl b => exact flatExec_flatView_shl b

theorem flatExec_of_unknown {q : Pair} {e : DecodeReject} (p : Params) (f : FlatState)
    (h : q.toInstr = .error e) :
    flatExec p q.a.toNat q.b.toNat f = flatFault (.execution .unknownOpcode) f := by
  rw [flatExec, if_pos (toNat_opcode_of_toInstr_error h)]

end FlatView

/-! ### The step of R44, an equation per branch -/

section FlatStep

variable {p : Params} {f : FlatState}

theorem flatStep_of_not_running (h : f.status ≠ .running) : flatStep p f = none := by
  unfold flatStep
  split
  · next hr => exact absurd hr h
  · rfl
  · rfl

theorem flatStep_of_end (hr : f.status = .running) (hp : f.pc = f.program.length) :
    flatStep p f = some { f with status := .halted } := by
  simp [flatStep, hr, hp]

theorem flatStep_of_beyond (hr : f.status = .running) (hp : f.program.length < f.pc) :
    flatStep p f = none := by
  simp [flatStep, hr, hp.ne', hp.le]

theorem flatStep_of_pair {q : Pair} (hr : f.status = .running) (hp : f.program[f.pc]? = some q) :
    flatStep p f = some (flatExec p q.a.toNat q.b.toNat f) := by
  have hlt := (List.getElem?_eq_some_iff.mp hp).1
  simp [flatStep, hr, hp, hlt.ne]

end FlatStep

/-! ### The snapshot (R56 to R58) -/

section Snapshot

variable {s t : State}

theorem takeSnapshot_cells_read {range : Int × Int} {cells : List (Nat × Word)}
    (h : takeSnapshot s range = .ok (t, cells)) : ∀ c ∈ cells, c.2 = s.mem.read c.1 := by
  unfold takeSnapshot at h
  split at h
  · cases h
  · split at h
    · cases h
    · split at h
      · cases h
        exact fun c hc => absurd hc List.not_mem_nil
      · split at h
        · cases h
        · next m hm =>
          obtain ⟨-, rfl⟩ := Memory.ensure_eq_some_iff.mp hm
          cases h
          intro c hc
          obtain ⟨a, -, rfl⟩ := List.mem_map.mp hc
          exact Memory.read_grow s.mem _ a

/-- A valid range that is not empty. -/
theorem takeSnapshot_of_valid {start stop : Nat} (hlt : start < stop)
    (hle : stop ≤ s.params.memCeiling) :
    takeSnapshot s (start, stop) =
      .ok ({ s with mem := s.mem.grow (stop - 1) },
        (List.range' start (stop - start)).map fun a => (a, s.mem.read a)) := by
  have hstop : ((stop : Int) - 1).toNat = stop - 1 := by omega
  have hcount : ((stop : Int) - start).toNat = stop - start := by omega
  simp only [takeSnapshot, hstop, hcount, Int.toNat_natCast]
  rw [if_neg (by omega), if_neg (by omega), if_neg (by omega), Memory.ensure_of_lt _ (by omega)]
  simp

theorem takeSnapshot_of_reversed {start stop : Int} (h : stop < start) :
    takeSnapshot s (start, stop) =
      .error (if start < 0 ∧ Config.negativeStartCheckedFirst = true then .address .outOfRange
        else .format .snapshotRange) :=
  if_pos h

theorem takeSnapshot_of_outside {start stop : Int} (hlt : start < stop)
    (h : start < 0 ∨ (s.params.memCeiling : Int) ≤ stop - 1) :
    takeSnapshot s (start, stop) = .error (.address .outOfRange) := by
  unfold takeSnapshot
  rw [if_neg hlt.not_gt]
  by_cases h0 : start < 0
  · exact if_pos ⟨h0, .inl hlt⟩
  · rw [if_neg (fun hneg => h0 hneg.1), if_neg hlt.ne, Memory.ensure_of_ge _ (by omega)]

theorem takeSnapshot_of_empty (start : Int) :
    takeSnapshot s (start, start) =
      if start < 0 ∧ Config.negativeEmptyRangeRejected = true then .error (.address .outOfRange)
      else .ok (s, []) := by
  simp [takeSnapshot]

end Snapshot

/-! ### The obligations -/

/-- Settles O36: memory by what a step does to it, the pc with the status, and the stack bound by
the overflow check. -/
theorem stepKeepsInvariant : Obligations.StepKeepsInvariant := by
  intro s t hinv h
  obtain ⟨hpc, hcoherent⟩ := step_pc_le_and_coherent h
  exact
    { memWf := step_mem_wf h hinv.memWf
      lenBound := (step_program_params h).2 ▸ step_len_le_ceiling h hinv.lenBound
      pcBound := hpc
      stackBound := step_stackInBounds h hinv.stackBound
      coherent := hcoherent }

/-- Settles O42: branch by branch of the step, each instruction commuting with the view. -/
theorem totalFunctionViewAgrees : Obligations.TotalFunctionViewAgrees := by
  refine ⟨fun s => ?_, fun s t range cells h => takeSnapshot_cells_read h⟩
  cases hr : s.status with
  | halted =>
    rw [step_of_halted hr]
    exact flatStep_of_not_running (by simp [flatView, hr])
  | faulted c pc =>
    rw [step_of_faulted hr]
    exact flatStep_of_not_running (by simp [flatView, hr])
  | running =>
    cases hp : s.program[s.pc]? with
    | none =>
      obtain hend | hbeyond := (List.getElem?_eq_none_iff.mp hp).eq_or_lt
      · rw [step_of_end hr hend.symm]
        exact flatStep_of_end hr hend.symm
      · rw [step_of_beyond hr hbeyond]
        exact flatStep_of_beyond hr hbeyond
    | some q =>
      rw [flatStep_of_pair hr hp]
      cases hi : q.toInstr with
      | error e =>
        rw [step_of_unknown hr hp hi, flatExec_of_unknown _ _ hi]
        rfl
      | ok i =>
        rw [step_of_instr hr hp hi, ← toPair_of_toInstr hi, flatExec_flatView]

/-- Settles O32: a step leaves memory, grows it below the ceiling, or writes a cell it has made. -/
theorem memoryGrowsMonotonically : Obligations.MemoryGrowsMonotonically := by
  refine ⟨fun s t h => ⟨step_len_mono h, fun hlen => ?_⟩, fun ceiling a m m' h => ?_⟩
  · rw [(step_program_params h).2]
    exact step_len_le_ceiling h hlen
  · obtain ⟨ha, rfl⟩ := Memory.ensure_eq_some_iff.mp h
    refine ⟨Memory.read_grow m a, Memory.ensure_eq_some_iff.mpr ⟨ha, ?_⟩⟩
    exact (Memory.grow_of_lt (by simp)).symm

/-- Settles O33: growth changes no cell, so the step wrote, and a write changes its own cell only. -/
theorem onlyStoreChangesCells : Obligations.OnlyStoreChangesCells := by
  intro s t a h hne
  obtain hm | ⟨a', -, hm⟩ | ⟨p, b, rest, value, base, hp, hi, hs, -, hm⟩ := step_mem_cases h
  · exact absurd (by rw [hm]) hne
  · exact absurd (by rw [hm, Memory.read_grow]) hne
  · rw [hm, Memory.read_put, Memory.read_grow] at hne
    obtain rfl : a = offsetAddress base b := by
      by_contra hother
      exact hne (if_neg hother)
    exact ⟨p, b, rest, value, base, hp, hi, hs, rfl, by rw [hm, Memory.read_put, if_pos rfl]⟩

/-- Settles O35: the STORE completed, since the pc advanced, so the LOAD's address is below the
ceiling, and two places on the stack are free. -/
theorem loadSeesPrecedingStore : Obligations.LoadSeesPrecedingStore := by
  intro s t b c rest value base hs h hpc haddr hroom
  obtain ⟨ha, rfl⟩ := exec_store_of_pc_succ hs h hpc
  refine ⟨_, exec_load_of_room (stackFull_eq_false_iff.mpr hroom) (haddr ▸ ha), ?_, rfl⟩
  simp [loadState, storeState, haddr]

/-- Settles O45, from what a successful store is. -/
theorem readGivesLatestWrite : Obligations.ReadGivesLatestWrite := by
  intro ceiling a v m m' h
  obtain ⟨-, rfl⟩ := Memory.store_eq_some_iff.mp h
  exact ⟨by simp, fun a' hne => by simp [hne], fun hwf => Memory.wf_store hwf h⟩

/-- Settles O22: the address is the first error that applies. -/
theorem addressAtCeilingFaults : Obligations.AddressAtCeilingFaults := by
  refine ⟨fun b s hroom ha => ?_, fun b rest x s hb hs ha => ?_⟩
  · refine exec_of_firstError ?_
    rw [firstError_load, stackFull_eq_false_iff.mpr hroom, if_neg Bool.false_ne_true, if_pos ha]
  · rw [← operandRejected_eq_false_iff] at hb
    have htop := top_of_stack s hs
    refine ⟨exec_of_firstError ?_, fun hrest => exec_of_firstError ?_⟩
    · simp [firstError_shl, hb, stackBelow, htop, hs, ha]
    · have hpos := List.length_pos_iff.mpr hrest
      have hbelow : ¬ rest.length + 1 < 2 := by omega
      simp [firstError_store, hb, stackBelow, htop, hs, ha, hbelow]

/-- Settles O44, one side of the ceiling after the other. -/
theorem ensureGrowsToCoverAddress : Obligations.EnsureGrowsToCoverAddress := by
  intro ceiling a m
  refine ⟨Memory.ensure_of_ge m, fun ha => ⟨m.grow a, Memory.ensure_of_lt m ha, ?_,
    Memory.read_grow m a, fun hwf a' hlen => ?_⟩⟩
  · rw [Memory.len_grow]
    split <;> omega
  · rw [Memory.read_grow, Memory.read_of_len_le hwf hlen]

/-- Settles O53, from the one equation of a valid range. -/
theorem snapshotListsRange : Obligations.SnapshotListsRange := by
  intro s start stop hhalted hlt hle
  have h := takeSnapshot_of_valid hlt hle
  refine ⟨_, _, h, by simp, fun k hk => by simp [hk], rfl, Memory.read_grow s.mem _, ?_, ?_⟩
  · simp [Nat.sub_add_cancel (Nat.one_le_of_lt hlt)]
  · simp [runResult, hhalted, h]

/-- Settles O54; where the spec leaves the answer open, each value of the free constant gives one of
the two (log 15, log 21). -/
theorem snapshotRangeErrors : Obligations.SnapshotRangeErrors := by
  intro s start stop
  refine ⟨fun h h0 => ?_, fun h _ => ?_, takeSnapshot_of_outside, ?_, ?_⟩
  · rw [takeSnapshot_of_reversed h, if_neg fun hneg => hneg.1.not_ge h0]
  · rw [takeSnapshot_of_reversed h]
    split
    · exact .inr rfl
    · exact .inl rfl
  · rintro rfl h0
    rw [takeSnapshot_of_empty, if_neg fun hneg => hneg.1.not_ge h0]
  · rintro rfl -
    rw [takeSnapshot_of_empty]
    split
    · exact .inl rfl
    · exact .inr rfl

end Sys2Proof.Machine

/-!
The family `30_encoding.md`: O6, O2, O3, O4, O5, O8, O9, O10, O12, O13, O14, O26, O1, O7, O11, O19,
O23, O47. First the facts its proofs share (the word and its bytes as numbers and bit by bit, blobs
and programs, the opcode map, tokens and aliases, what an accepted element is, the first failing
one, the checks that a legal program passes), then the obligations.
-/

namespace Sys2Proof

/-! ### The fields of a word and of its bytes (R60 to R65) -/

theorem toNat_wordOfBytes (b0 b1 b2 : Byte) :
    (wordOfBytes b0 b1 b2).toNat = b0.toNat + 2 ^ 8 * b1.toNat + 2 ^ 16 * b2.toNat := by
  have hb0 := b0.isLt
  have hb1 := b1.isLt
  have hb2 := b2.isLt
  have hsplit : wordOfBytes b0 b1 b2 = (b2 ++ b1 ++ b0).cast (by rfl) := by
    apply BitVec.eq_of_getLsbD_eq
    intro i hi
    simp only [getLsbD_wordOfBytes, BitVec.getLsbD_cast, BitVec.getLsbD_append]
    by_cases c0 : i < 8
    · simp [c0]
    · by_cases c1 : i < 16
      · simp [c0, c1, show i - 8 < 8 by omega]
      · simp [c0, c1, hi, show ¬ i - 8 < 8 by omega, show i - 8 - 8 = i - 16 by omega]
  rw [hsplit, BitVec.toNat_cast, BitVec.toNat_append, BitVec.toNat_append,
    ← Nat.shiftLeft_add_eq_or_of_lt hb0, ← Nat.shiftLeft_add_eq_or_of_lt hb1]
  simp only [Nat.shiftLeft_eq]
  omega

theorem toNat_byteOfWord (k : Nat) (w : Word24) :
    (byteOfWord k w).toNat = w.toNat / 2 ^ (8 * k) % 2 ^ 8 := by
  rw [byteOfWord, BitVec.extractLsb'_toNat, Nat.shiftRight_eq_div_pow]

theorem toNat_pairOfWord_a (w : Word24) : (pairOfWord w).a.toNat = w.toNat % 8 := by
  simp [pairOfWord]

theorem toNat_pairOfWord_b (w : Word24) : (pairOfWord w).b.toNat = w.toNat / 8 := by
  have hw := w.isLt
  simp only [pairOfWord, BitVec.extractLsb'_toNat, Nat.shiftRight_eq_div_pow]
  omega

/-- A field of a byte is a field of the word. -/
theorem extractLsb'_byteOfWord (k j n : Nat) (w : Word24) (hj : j + n ≤ 8) :
    (byteOfWord k w).extractLsb' j n = w.extractLsb' (8 * k + j) n := by
  apply BitVec.eq_of_getLsbD_eq
  intro i hi
  simp [byteOfWord, hi, show j + i < 8 by omega, Nat.add_assoc]

/-- A field of the word above its 3 opcode bits is a field of the operand (R61). -/
theorem extractLsb'_wordOfPair (p : Pair) (j n : Nat) :
    (wordOfPair p).extractLsb' (3 + j) n = p.b.extractLsb' j n := by
  apply BitVec.eq_of_getLsbD_eq
  intro i hi
  have hge : 24 ≤ 3 + j + i → p.b.getLsbD (j + i) = false :=
    fun h => BitVec.getLsbD_of_ge p.b _ (by omega)
  simp only [BitVec.getLsbD_extractLsb', getLsbD_wordOfPair, hi]
  by_cases c : 3 + j + i < 24
  · simp [c, show ¬ 3 + j + i < 3 by omega, show 3 + j + i - 3 = j + i by omega]
  · simp [c, show ¬ 3 + j + i < 3 by omega, hge (by omega)]

/-- R63: where the operand's bits from `l` on fall, at bit `j` of byte `k`. -/
theorem extractLsb'_byteOfWord_wordOfPair (p : Pair) {k j n l : Nat} (hj : j + n ≤ 8)
    (hl : 8 * k + j = 3 + l) :
    (byteOfWord k (wordOfPair p)).extractLsb' j n = p.b.extractLsb' l n := by
  rw [extractLsb'_byteOfWord k j n _ hj, hl, extractLsb'_wordOfPair]

/-- R63: `A` is the low 3 bits of byte 0. -/
theorem decode_a_setWidth (b0 b1 b2 : Byte) :
    (decode b0 b1 b2).a.setWidth 8 = b0 &&& 7#8 := by
  apply BitVec.eq_of_toNat_eq
  rw [decode, BitVec.toNat_setWidth, toNat_pairOfWord_a, toNat_wordOfBytes, BitVec.toNat_and]
  rw [show (7#8).toNat = 2 ^ 3 - 1 from rfl, Nat.and_two_pow_sub_one_eq_mod]
  omega

/-- R63: `B` put together from the bytes. -/
theorem decode_b_eq_shifts (b0 b1 b2 : Byte) :
    (decode b0 b1 b2).b =
      (b0.setWidth 21 >>> 3) ||| (b1.setWidth 21 <<< 5) ||| (b2.setWidth 21 <<< 13) := by
  apply BitVec.eq_of_getLsbD_eq
  intro i hi
  have h0 : 5 ≤ i → b0.getLsbD (3 + i) = false := fun _ => BitVec.getLsbD_of_ge b0 _ (by omega)
  have h1 : 13 ≤ i → b1.getLsbD (i - 5) = false := fun _ => BitVec.getLsbD_of_ge b1 _ (by omega)
  simp only [decode, pairOfWord, BitVec.getLsbD_extractLsb', getLsbD_wordOfBytes,
    BitVec.getLsbD_or, BitVec.getLsbD_ushiftRight, BitVec.getLsbD_shiftLeft,
    BitVec.getLsbD_setWidth, hi]
  by_cases c0 : i < 5
  · simp [c0, show 3 + i < 8 by omega, show 3 + i < 21 by omega, show i < 13 by omega]
  · by_cases c1 : i < 13
    · simp [c0, c1, h0 (by omega), show ¬ 3 + i < 8 by omega, show 3 + i < 16 by omega,
        show 3 + i - 8 = i - 5 by omega, show i - 5 < 21 by omega]
    · simp [c0, c1, h0 (by omega), h1 (by omega), show ¬ 3 + i < 8 by omega,
        show ¬ 3 + i < 16 by omega, show 3 + i < 24 by omega,
        show 3 + i - 16 = i - 13 by omega, show i - 13 < 21 by omega]

/-! ### Encoding and decoding one pair (R64 to R66) -/

/-- R66: decoding the three bytes of a pair gives the pair. -/
theorem decode_bytes (p : Pair) :
    decode (byteOfWord 0 (wordOfPair p)) (byteOfWord 1 (wordOfPair p))
      (byteOfWord 2 (wordOfPair p)) = p := by
  rw [decode, wordOfBytes_bytes, pairOfWord_wordOfPair]

/-- R66: encoding a decoded triple gives its bytes. -/
@[simp] theorem encodePair_decode (b0 b1 b2 : Byte) :
    encodePair (decode b0 b1 b2) = [b0, b1, b2] := by
  obtain ⟨h0, h1, h2⟩ := bytes_wordOfBytes b0 b1 b2
  rw [encodePair, decode, wordOfPair_pairOfWord, h0, h1, h2]

@[simp] theorem length_encodePair (p : Pair) : (encodePair p).length = 3 := rfl

theorem encodeFields_of_le {a b : Nat} (ha : a ≤ 7) (hb : b ≤ 2 ^ 21 - 1) :
    encodeFields a b = some (encodePair { a := BitVec.ofNat 3 a, b := BitVec.ofNat 21 b }) :=
  if_pos ⟨ha, hb⟩

theorem encodeFields_eq_none_iff {a b : Nat} :
    encodeFields a b = none ↔ ¬ (a ≤ 7 ∧ b ≤ 2 ^ 21 - 1) := by
  simp [encodeFields]

/-! ### Encoding and decoding a program (R74 to R77) -/

theorem encodeProgram_cons (p : Pair) (ps : List Pair) :
    encodeProgram (p :: ps) = encodePair p ++ encodeProgram ps := rfl

/-- A blob that does not begin with a word is shorter than one. -/
theorem length_lt_three {blob : List Byte}
    (h : ∀ b0 b1 b2 rest, blob = b0 :: b1 :: b2 :: rest → False) : blob.length < 3 := by
  match blob with
  | [] | [_] | [_, _] => simp
  | b0 :: b1 :: b2 :: rest => exact (h b0 b1 b2 rest rfl).elim

/-- A blob of whole words is the encoding of what it decodes to: no bit is dropped. -/
theorem encodeProgram_decodeWords {blob : List Byte} (h : blob.length % 3 = 0) :
    encodeProgram (decodeWords blob) = blob := by
  fun_induction decodeWords blob with
  | case1 b0 b1 b2 rest ih =>
    have hrest : rest.length % 3 = 0 := by
      simp only [List.length_cons] at h
      omega
    rw [encodeProgram_cons, encodePair_decode, ih hrest]
    rfl
  | case2 blob hshort =>
    have hlt := length_lt_three hshort
    obtain rfl : blob = [] := List.length_eq_zero_iff.mp (by omega)
    rfl

@[simp] theorem length_encodeProgram (ps : List Pair) :
    (encodeProgram ps).length = 3 * ps.length := by
  induction ps with
  | nil => rfl
  | cons p ps ih =>
    rw [encodeProgram_cons, List.length_append, ih, length_encodePair, List.length_cons]
    omega

@[simp] theorem decodeWords_encodeProgram (ps : List Pair) :
    decodeWords (encodeProgram ps) = ps := by
  induction ps with
  | nil => rfl
  | cons p ps ih =>
    rw [encodeProgram_cons, encodePair]
    simp [decodeWords, decode_bytes, ih]

/-- R75, R77: a blob decodes to a program exactly when it is the encoding of that program. -/
theorem decodeStream_eq_ok_iff {blob : List Byte} {ps : List Pair} :
    decodeStream blob = .ok ps ↔ blob = encodeProgram ps := by
  constructor
  · intro h
    rw [decodeStream] at h
    split at h
    · next hlen =>
      cases h
      exact (encodeProgram_decodeWords hlen).symm
    · cases h
  · rintro rfl
    simp [decodeStream]

/-- R75: instruction `i` is decoded from bytes `3i .. 3i+2`. -/
theorem decodeWords_getElem? {blob : List Byte} {i : Nat} {b0 b1 b2 : Byte}
    (h0 : blob[3 * i]? = some b0) (h1 : blob[3 * i + 1]? = some b1)
    (h2 : blob[3 * i + 2]? = some b2) : (decodeWords blob)[i]? = some (decode b0 b1 b2) := by
  fun_induction decodeWords blob generalizing i with
  | case1 c0 c1 c2 rest ih =>
    cases i with
    | zero => simp_all
    | succ i => exact ih h0 h1 h2
  | case2 blob hshort =>
    have hlt := length_lt_three hshort
    have hle := (List.getElem?_eq_some_iff.mp h2).1
    omega

/-! ### The opcode map (R69, R70) -/

/-- R69: the opcode map reads an instruction's pair back as that instruction. -/
@[simp] theorem toInstr_toPair (i : Instr) : i.toPair.toInstr = .ok i := by
  cases i with
  | loadc b => exact Laws.OpcodeMap.loadc b
  | load b => exact Laws.OpcodeMap.load b
  | store b => exact Laws.OpcodeMap.store b
  | shl b => exact Laws.OpcodeMap.shl b

theorem toInstr_of_illegal {p : Pair} (h : p.a = 0 ∨ p.a = 1 ∨ p.a = 4 ∨ p.a = 5) :
    p.toInstr = .error (.unknownOpcode p.a) := by
  obtain ⟨a, b⟩ := p
  obtain rfl | rfl | rfl | rfl : a = 0 ∨ a = 1 ∨ a = 4 ∨ a = 5 := h <;> rfl

end Sys2Proof

namespace Sys2Proof.Machine

/-! ### Token normalisation (R79) -/

theorem normaliseToken_append (t u : Token) :
    normaliseToken (t ++ u) = normaliseToken t ++ normaliseToken u := by
  simp [normaliseToken]

theorem normaliseToken_cons_separator {c : Char} (u : Token) (h : c = '-' ∨ c = '_') :
    normaliseToken (c :: u) = normaliseToken u := by
  obtain rfl | rfl := h <;> simp [normaliseToken]

theorem normaliseToken_cons {c : Char} (u : Token) (hd : c ≠ '-') (hu : c ≠ '_') :
    normaliseToken (c :: u) = upperAscii c :: normaliseToken u := by
  simp [normaliseToken, hd, hu]

/-- A character that normalisation leaves as it is. -/
def NormalChar (c : Char) : Prop :=
  c ≠ '-' ∧ c ≠ '_' ∧ ¬ (97 ≤ c.toNat ∧ c.toNat ≤ 122)

theorem upperAscii_of_normal {c : Char} (h : NormalChar c) : upperAscii c = c :=
  if_neg h.2.2

theorem toNat_upperAscii_of_lower {c : Char} (h : 97 ≤ c.toNat ∧ c.toNat ≤ 122) :
    (upperAscii c).toNat = c.toNat - 32 := by
  have hvalid : (c.toNat - 32).isValidChar := .inl (by omega)
  rw [upperAscii, if_pos h, Char.toNat_ofNat, if_pos hvalid]

theorem normal_upperAscii {c : Char} (hd : c ≠ '-') (hu : c ≠ '_') : NormalChar (upperAscii c) := by
  by_cases h : 97 ≤ c.toNat ∧ c.toNat ≤ 122
  · have hn := toNat_upperAscii_of_lower h
    refine ⟨fun he => ?_, fun he => ?_, by omega⟩
    · rw [he, show '-'.toNat = 45 from rfl] at hn
      omega
    · rw [he, show '_'.toNat = 95 from rfl] at hn
      omega
  · rw [upperAscii, if_neg h]
    exact ⟨hd, hu, h⟩

theorem normal_of_mem_normaliseToken {t : Token} {c : Char} (h : c ∈ normaliseToken t) :
    NormalChar c := by
  simp only [normaliseToken, List.mem_map, List.mem_filter, Bool.and_eq_true, bne_iff_ne] at h
  obtain ⟨d, ⟨-, hd, hu⟩, rfl⟩ := h
  exact normal_upperAscii hd hu

theorem normaliseToken_of_normal {t : Token} (h : ∀ c ∈ t, NormalChar c) :
    normaliseToken t = t := by
  induction t with
  | nil => rfl
  | cons c u ih =>
    have hc := h c List.mem_cons_self
    rw [normaliseToken_cons u hc.1 hc.2.1, upperAscii_of_normal hc,
      ih fun d hd => h d (List.mem_cons_of_mem _ hd)]

/-- The 26 letters: neither case is a separator, and both have one uppercase form. -/
theorem upperAscii_letter : ∀ k < 26,
    (Char.ofNat (97 + k) ≠ '-' ∧ Char.ofNat (97 + k) ≠ '_') ∧
    (Char.ofNat (65 + k) ≠ '-' ∧ Char.ofNat (65 + k) ≠ '_') ∧
    upperAscii (Char.ofNat (97 + k)) = upperAscii (Char.ofNat (65 + k)) := by
  decide

/-! ### The table of aliases (R80) and the operand (R81) -/

theorem aliasTable_keys_nodup : (aliasTable.map Prod.fst).Nodup := by
  decide

/-- In a table without repeated keys, looking up is membership. -/
theorem lookup_eq_some_iff_mem {α β : Type} [BEq α] [LawfulBEq α] {l : List (α × β)}
    (h : (l.map Prod.fst).Nodup) {k : α} {v : β} : l.lookup k = some v ↔ (k, v) ∈ l := by
  rw [List.lookup_eq_some_iff]
  constructor
  · rintro ⟨l₁, l₂, rfl, -⟩
    simp
  · intro hmem
    obtain ⟨l₁, l₂, rfl⟩ := List.append_of_mem hmem
    refine ⟨l₁, l₂, rfl, fun p hp => bne_iff_ne.mpr ?_⟩
    rintro rfl
    rw [List.map_append, List.nodup_append] at h
    exact h.2.2 p.1 (List.mem_map_of_mem hp) p.1 (by simp) rfl

theorem mnemonicOfToken_eq_some_iff {t : Token} {m : Mnemonic} :
    mnemonicOfToken t = some m ↔ (normaliseToken t, m) ∈ aliasTable :=
  lookup_eq_some_iff_mem aliasTable_keys_nodup

theorem mnemonicOperandMax_eq (m : Mnemonic) :
    (mnemonicOperandMax m : Int) = if m = .load then 2097151 else 65535 := by
  cases m <;> rfl

theorem mnemonicOperandMax_lt (m : Mnemonic) : mnemonicOperandMax m < 2 ^ 21 := by
  cases m <;> decide

theorem checkOperand_eq_ok_iff {m : Mnemonic} {x : HostValue} {b : Operand} :
    checkOperand m x = .ok b ↔ x = .int b.toNat ∧ b.toNat ≤ mnemonicOperandMax m := by
  have hmax := mnemonicOperandMax_lt m
  cases x with
  | notInteger => simp [checkOperand]
  | int v =>
    simp only [checkOperand, HostValue.int.injEq]
    split
    · rw [Except.ok.injEq, ← BitVec.toNat_inj, BitVec.toNat_ofNat]
      omega
    · simp only [reduceCtorEq, false_iff]
      omega

theorem checkOperand_of_outside {m : Mnemonic} {v : Int} (h : v < 0 ∨ mnemonicOperandMax m < v) :
    checkOperand m (.int v) = .error (.validation .operandRange) :=
  if_neg (by omega)

/-- The instruction of a mnemonic with an operand. -/
def Mnemonic.instr : Mnemonic → Operand → Instr
  | .loadc => .loadc
  | .load => .load
  | .store => .store
  | .shl => .shl

theorem toInstr_mnemonicOpcode (m : Mnemonic) (b : Operand) :
    (Pair.mk (mnemonicOpcode m) b).toInstr = .ok (m.instr b) := by
  cases m <;> rfl

theorem instr_wellFormed_iff {m : Mnemonic} {b : Operand} :
    (m.instr b).wellFormed = true ↔ b.toNat ≤ mnemonicOperandMax m := by
  cases m <;> exact decide_eq_true_iff

/-! ### One element (R78, R80, R81) -/

section AssembleElement

variable {t : Token} {m : Mnemonic} {o : Option HostValue}

theorem assembleElement_of_unknown (o : Option HostValue) (h : mnemonicOfToken t = none) :
    assembleElement (.record (some t) o) = .error (.validation .unknownMnemonic) := by
  simp [assembleElement, h]

theorem assembleElement_of_checked {b : Operand} (h : mnemonicOfToken t = some m)
    (hb : checkOperand m (o.getD (.int 0)) = .ok b) :
    assembleElement (.record (some t) o) = .ok { a := mnemonicOpcode m, b := b } := by
  simp [assembleElement, h, hb]

theorem assembleElement_of_rejected {c : ErrorCause} (h : mnemonicOfToken t = some m)
    (hc : checkOperand m (o.getD (.int 0)) = .error c) :
    assembleElement (.record (some t) o) = .error c := by
  simp [assembleElement, h, hc]

/-- What an accepted element is. -/
theorem assembleElement_ok_cases {e : Element} {p : Pair} (h : assembleElement e = .ok p) :
    ∃ t o m b, e = .record (some t) o ∧ mnemonicOfToken t = some m ∧
      checkOperand m (o.getD (.int 0)) = .ok b ∧ p = { a := mnemonicOpcode m, b := b } := by
  unfold assembleElement at h
  split at h
  · cases h
  · cases h
  · next t o =>
    split at h
    · cases h
    · next m hm =>
      split at h
      · cases h
      · next b hb =>
        cases h
        exact ⟨t, o, m, b, rfl, hm, hb, rfl⟩

/-- The assembler emits legal instructions only (R67, R80, R81). -/
theorem assembleElement_legal {e : Element} {p : Pair} (h : assembleElement e = .ok p) :
    ∃ i, p.toInstr = .ok i ∧ i.wellFormed = true := by
  obtain ⟨t, o, m, b, -, -, hb, rfl⟩ := assembleElement_ok_cases h
  exact ⟨m.instr b, toInstr_mnemonicOpcode m b,
    instr_wellFormed_iff.mpr (checkOperand_eq_ok_iff.mp hb).2⟩

end AssembleElement

/-! ### A list of elements (R77, R82) -/

section AssembleFrom

variable {e : Element} {es : List Element} {i : Nat}

theorem assembleFrom_cons_of_error {c : ErrorCause} (h : assembleElement e = .error c) :
    assembleFrom i (e :: es) = .error { cause := c, position := .record i } := by
  simp [assembleFrom, h]

theorem assembleFrom_cons_of_ok {p : Pair} (h : assembleElement e = .ok p) :
    assembleFrom i (e :: es) = (assembleFrom (i + 1) es).map (p :: ·) := by
  rw [assembleFrom, h]
  cases assembleFrom (i + 1) es <;> rfl

/-- The whole list is accepted exactly when each element is. -/
theorem assembleFrom_eq_ok_iff {ps : List Pair} :
    assembleFrom i es = .ok ps ↔ es.map assembleElement = ps.map .ok := by
  induction es generalizing i ps with
  | nil => cases ps <;> simp [assembleFrom]
  | cons e es ih =>
    cases he : assembleElement e with
    | error c => cases ps <;> simp [assembleFrom_cons_of_error he, he]
    | ok p =>
      rw [assembleFrom_cons_of_ok he]
      cases ps with
      | nil => cases assembleFrom (i + 1) es <;> simp [Except.map]
      | cons q qs =>
        rw [List.map_cons, List.map_cons, List.cons.injEq, he, Except.ok.injEq, ← ih (i := i + 1)]
        cases assembleFrom (i + 1) es <;> simp [Except.map]

/-- An element is the first failing one of a list, at index `k`. -/
def FailsFirstAt (es : List Element) (k : Nat) (c : ErrorCause) : Prop :=
  (∃ e, es[k]? = some e ∧ assembleElement e = .error c) ∧
    ∀ j < k, ∀ e, es[j]? = some e → ∃ p, assembleElement e = .ok p

theorem failsFirstAt_zero {c : ErrorCause} :
    FailsFirstAt (e :: es) 0 c ↔ assembleElement e = .error c := by
  simp [FailsFirstAt]

theorem failsFirstAt_succ {k : Nat} {c : ErrorCause} :
    FailsFirstAt (e :: es) (k + 1) c ↔
      (∃ p, assembleElement e = .ok p) ∧ FailsFirstAt es k c := by
  simp only [FailsFirstAt, List.getElem?_cons_succ]
  constructor
  · rintro ⟨hk, hbefore⟩
    exact ⟨hbefore 0 (Nat.succ_pos k) e rfl, hk, fun j hj e' he' =>
      hbefore (j + 1) (Nat.succ_lt_succ hj) e' he'⟩
  · rintro ⟨hok, hk, hbefore⟩
    refine ⟨hk, fun j hj e' he' => ?_⟩
    cases j with
    | zero =>
      obtain rfl := Option.some.inj he'
      exact hok
    | succ j => exact hbefore j (Nat.lt_of_succ_lt_succ hj) e' he'

/-- R82: the report is the error and the index of the first failing element. -/
theorem assembleFrom_eq_error_iff {r : ErrorReport} :
    assembleFrom i es = .error r ↔
      ∃ k c, FailsFirstAt es k c ∧ r = { cause := c, position := .record (i + k) } := by
  induction es generalizing i with
  | nil => simp [assembleFrom, FailsFirstAt]
  | cons e es ih =>
    cases he : assembleElement e with
    | error c =>
      rw [assembleFrom_cons_of_error he, Except.error.injEq]
      constructor
      · rintro rfl
        exact ⟨0, c, failsFirstAt_zero.mpr he, rfl⟩
      · rintro ⟨k, d, hk, rfl⟩
        cases k with
        | zero => simpa [he] using failsFirstAt_zero.mp hk
        | succ k => simpa [he] using (failsFirstAt_succ.mp hk).1
    | ok p =>
      rw [assembleFrom_cons_of_ok he]
      have hrest : (assembleFrom (i + 1) es).map (p :: ·) = .error r ↔
          assembleFrom (i + 1) es = .error r := by
        cases assembleFrom (i + 1) es <;> simp [Except.map]
      have hindex (k : Nat) : i + 1 + k = i + (k + 1) := by omega
      rw [hrest, ih]
      constructor
      · rintro ⟨k, c, hk, rfl⟩
        exact ⟨k + 1, c, failsFirstAt_succ.mpr ⟨⟨p, he⟩, hk⟩, by rw [hindex]⟩
      · rintro ⟨k, c, hk, rfl⟩
        cases k with
        | zero => simpa [he] using failsFirstAt_zero.mp hk
        | succ k => exact ⟨k, c, (failsFirstAt_succ.mp hk).2, by rw [hindex]⟩

end AssembleFrom

theorem assemble_list_eq_ok_iff {es : List Element} {blob : List Byte} :
    assemble (.list es) = .ok blob ↔
      ∃ ps : List Pair, es.map assembleElement = ps.map .ok ∧ blob = encodeProgram ps := by
  simp only [← assembleFrom_eq_ok_iff (i := 0), assemble, assemblePairs]
  cases assembleFrom 0 es <;> simp [eq_comm]

theorem assemble_list_eq_error_iff {es : List Element} {r : ErrorReport} :
    assemble (.list es) = .error r ↔ assembleFrom 0 es = .error r := by
  simp only [assemble, assemblePairs]
  cases assembleFrom 0 es <;> simp

/-- Only a list is assembled, and its blob is the encoding of legal instructions. -/
theorem assemble_ok_legal {input : InstructionList} {blob : List Byte}
    (h : assemble input = .ok blob) : ∃ ps, blob = encodeProgram ps ∧ programLegal ps := by
  cases input with
  | notList => cases h
  | list es =>
    obtain ⟨ps, hps, rfl⟩ := assemble_list_eq_ok_iff.mp h
    refine ⟨ps, rfl, fun p hp => ?_⟩
    have hmem : Except.ok p ∈ es.map assembleElement := hps ▸ List.mem_map_of_mem hp
    obtain ⟨e, -, he⟩ := List.mem_map.mp hmem
    exact assembleElement_legal he

/-! ### Runs that meet no unknown opcode and no operand out of range (R70, R71) -/

/-- The errors of R101: which an instruction can meet, and that a well-formed one is in range. -/
theorem firstError_cases {i : Instr} {s : State} {c : ErrorCause} (h : firstError i s = some c) :
    (c = .validation .operandRange ∧ i.wellFormed = false) ∨ c = .execution .stackUnderflow ∨
      c = .execution .stackOverflow ∨ c = .address .outOfRange := by
  unfold firstError at h
  split at h
  · cases h
    exact .inl ⟨rfl, by simp_all⟩
  · split at h
    · cases h
      exact .inr (.inl rfl)
    · split at h
      · cases h
        exact .inr (.inr (.inl rfl))
      · split at h
        · cases h
        · split at h
          · cases h
            exact .inr (.inr (.inr rfl))
          · cases h

theorem answerState_status_of_firstError {i : Instr} {s : State} {c : ErrorCause}
    (h : firstError i s = some c) : (answerState i s).status = .faulted c s.pc := by
  rw [answerState, h]
  rfl

theorem answerState_status_of_no_error {i : Instr} {s : State} (h : firstError i s = none) :
    (answerState i s).status = s.status := by
  rw [answerState, h]
  cases i <;> rfl

/-- A status that is no fault of the opcode check or of the operand check. -/
def Status.passesChecks (st : Status) : Prop :=
  ∀ pc, st ≠ .faulted (.execution .unknownOpcode) pc ∧ st ≠ .faulted (.validation .operandRange) pc

theorem passesChecks_running : Status.running.passesChecks :=
  fun _ => ⟨by simp, by simp⟩

theorem passesChecks_halted : Status.halted.passesChecks :=
  fun _ => ⟨by simp, by simp⟩

/-- A well-formed instruction passes both checks (R71, R101). -/
theorem answerState_passesChecks {i : Instr} {s : State} (hwf : i.wellFormed = true)
    (hs : s.status.passesChecks) : (answerState i s).status.passesChecks := by
  cases h : firstError i s with
  | none =>
    rw [answerState_status_of_no_error h]
    exact hs
  | some c =>
    rw [answerState_status_of_firstError h]
    obtain ⟨-, hill⟩ | rfl | rfl | rfl := firstError_cases h
    · simp [hwf] at hill
    all_goals exact fun pc => ⟨by simp, by simp⟩

/-- A predicate every step keeps holds at the end of every run. -/
theorem steps_induction {Q : State → Prop} (hstep : ∀ s t, Q s → step s = .next t → Q t) (n : Nat)
    {s : State} (hs : Q s) : Q (steps n s) := by
  induction n generalizing s with
  | zero => exact hs
  | succ n ih =>
    rw [steps]
    split
    · next t ht => exact ih (hstep s t hs ht)
    · exact hs
    · exact hs

theorem step_keeps_legal_passesChecks (s t : State)
    (hs : programLegal s.program ∧ s.status.passesChecks) (h : step s = .next t) :
    programLegal t.program ∧ t.status.passesChecks := by
  obtain ⟨hlegal, hstatus⟩ := hs
  refine ⟨(step_program_params h).1 ▸ hlegal, ?_⟩
  obtain ⟨-, ⟨-, rfl⟩ | ⟨p, a, hp, hi, -⟩ | ⟨p, i, hp, hi, hexec⟩⟩ := step_cases h
  · exact passesChecks_halted
  · obtain ⟨j, hj, -⟩ := hlegal p (List.mem_of_getElem? hp)
    cases hi.symm.trans hj
  · obtain ⟨j, hj, hwf⟩ := hlegal p (List.mem_of_getElem? hp)
    obtain rfl : i = j := Except.ok.inj (hi.symm.trans hj)
    rw [exec_next_iff.mp hexec]
    exact answerState_passesChecks hwf hstatus

/-! ### The obligations -/

/-- Settles O6: both directions from the one equivalence of blobs and programs. -/
theorem programsSurviveEncodeAndDecode : Obligations.ProgramsSurviveEncodeAndDecode := by
  refine ⟨fun is => ⟨decodeStream_eq_ok_iff.mpr ?_, ?_⟩, fun blob ps => decodeStream_eq_ok_iff⟩
  · rw [encodeProgram, List.flatMap_map]
    rfl
  · rw [List.map_map]
    exact List.map_congr_left fun i _ => toInstr_toPair i

/-- Settles O2, from the word as a number. -/
theorem decodeReadsWordFields : Obligations.DecodeReadsWordFields := by
  intro b0 b1 b2
  rw [← toNat_wordOfBytes]
  exact ⟨toNat_pairOfWord_a _, toNat_pairOfWord_b _⟩

/-- Settles O3: the bytes are the digits of the word to base `2 ^ 8`. -/
theorem encodeIsDefinedOnFieldWidths : Obligations.EncodeIsDefinedOnFieldWidths := by
  refine fun a b => ⟨encodeFields_eq_none_iff, fun ha hb =>
    ⟨_, _, _, encodeFields_of_le ha hb, ?_⟩⟩
  have hword : (wordOfPair ⟨BitVec.ofNat 3 a, BitVec.ofNat 21 b⟩).toNat = 8 * b + a := by
    rw [toNat_wordOfPair, BitVec.toNat_ofNat, BitVec.toNat_ofNat]
    omega
  simp [toNat_byteOfWord, hword]

/-- Settles O4: a field of a byte is a field of the word, and so of the pair; what is read back is
what `decode` reads. -/
theorem fieldsFallInBytes : Obligations.FieldsFallInBytes := by
  intro p
  have hdecode := decode_bytes p
  refine ⟨_, _, _, rfl, ?_, ?_, ?_, ?_, ?_, ?_, ?_, ?_, fun hb => ?_⟩
  · rw [extractLsb'_byteOfWord _ _ _ _ (by decide)]
    exact congrArg Pair.a (pairOfWord_wordOfPair p)
  · exact extractLsb'_byteOfWord_wordOfPair p (by decide) rfl
  · exact extractLsb'_byteOfWord_wordOfPair p (by decide) rfl
  · exact extractLsb'_byteOfWord_wordOfPair p (by decide) rfl
  · exact extractLsb'_byteOfWord_wordOfPair p (by decide) rfl
  · exact extractLsb'_byteOfWord_wordOfPair p (by decide) rfl
  · rw [← decode_a_setWidth, hdecode]
  · rw [← decode_b_eq_shifts, hdecode]
  · have ha := p.a.isLt
    rw [toNat_byteOfWord, toNat_wordOfPair]
    omega

/-- Settles O5: the two laws make `encodePair` an inverse of `decode` on both sides. -/
theorem decodeIsBijectionWithEncode : Obligations.DecodeIsBijectionWithEncode := by
  refine ⟨fun a b ha hb => ⟨_, _, _, encodeFields_of_le ha hb, ?_⟩, encodePair_decode, ?_,
    fun p => ⟨(_, _, _), decode_bytes p⟩⟩
  · rw [decode_bytes, BitVec.toNat_ofNat, BitVec.toNat_ofNat]
    omega
  · rintro ⟨b0, b1, b2⟩ ⟨c0, c1, c2⟩ h
    simpa using congrArg encodePair h

/-- Settles O8. -/
theorem streamDecodesThreeBytesPerInstruction :
    Obligations.StreamDecodesThreeBytesPerInstruction := by
  refine fun blob => ⟨fun hlen => if_neg hlen, fun n hlen => ?_⟩
  have hwhole : blob.length % 3 = 0 := by omega
  refine ⟨decodeWords blob, if_pos hwhole, ?_, fun i b0 b1 b2 => decodeWords_getElem?⟩
  have hlength := congrArg List.length (encodeProgram_decodeWords hwhole)
  rw [length_encodeProgram] at hlength
  omega

/-- Settles O9, character by character. -/
theorem tokenNormalisationIsCaseAndSeparatorBlind :
    Obligations.TokenNormalisationIsCaseAndSeparatorBlind := by
  refine ⟨fun t c => normal_of_mem_normaliseToken, fun t => normaliseToken_of_normal,
    fun t u c hc => ?_, fun t u k hk => ?_⟩
  · rw [normaliseToken_append, normaliseToken_cons_separator u hc, normaliseToken_append]
  · obtain ⟨⟨hd, hu⟩, ⟨hd', hu'⟩, hupper⟩ := upperAscii_letter k hk
    rw [normaliseToken_append, normaliseToken_append, normaliseToken_cons u hd hu,
      normaliseToken_cons u hd' hu', hupper]

/-- Settles O10, from looking up the table being membership in it. -/
theorem aliasTableSelectsOpcode : Obligations.AliasTableSelectsOpcode := by
  refine ⟨fun t m => ?_, ⟨rfl, rfl, rfl, rfl⟩, fun t o => assembleElement_of_unknown o,
    fun e p h => ?_⟩
  · rw [mnemonicOfToken_eq_some_iff]
    cases m <;> simp [aliasTable]
  · obtain ⟨i, hi, -⟩ := assembleElement_legal h
    exact ⟨i, hi⟩

/-- Settles O12: the first failing element of the list, counted from 0. -/
theorem firstFailingRecordIsReported : Obligations.FirstFailingRecordIsReported := by
  intro es r
  rw [assemble_list_eq_error_iff, assembleFrom_eq_error_iff]
  constructor
  · rintro ⟨k, c, ⟨⟨e, hk, he⟩, hbefore⟩, rfl⟩
    exact ⟨k, e, c, hk, he, by rw [Nat.zero_add], hbefore⟩
  · rintro ⟨k, e, c, hk, he, rfl, hbefore⟩
    exact ⟨k, c, ⟨⟨e, hk, he⟩, hbefore⟩, by rw [Nat.zero_add]⟩

/-- Settles O13. -/
theorem blobConcatenatesEncodedRecords : Obligations.BlobConcatenatesEncodedRecords := by
  refine ⟨fun es blob => assemble_list_eq_ok_iff, fun es blob h => ?_, rfl⟩
  obtain ⟨ps, hps, rfl⟩ := assemble_list_eq_ok_iff.mp h
  have hlength : es.length = ps.length := by simpa using congrArg List.length hps
  rw [length_encodeProgram, hlength]

/-- Settles O14: the program of the run is legal, which every step keeps together with the status
being no fault of either check. -/
theorem assembledBlobsNeverFailOpcodeOrOperandChecks :
    Obligations.AssembledBlobsNeverFailOpcodeOrOperandChecks := by
  intro input blob h
  obtain ⟨ps, rfl, hlegal⟩ := assemble_ok_legal h
  refine ⟨⟨ps, decodeStream_eq_ok_iff.mpr rfl, hlegal⟩, fun p r s hblob hboot => ?_⟩
  obtain ⟨-, qs, m, hqs, -, rfl⟩ := boot_ok.mp hboot
  rw [hblob, decodeStream_eq_ok_iff.mpr rfl] at hqs
  obtain rfl := Except.ok.inj hqs
  exact (steps_induction step_keeps_legal_passesChecks _ ⟨hlegal, passesChecks_running⟩).2

/-- Settles O26: the program at the pc is what the three bytes decode to. -/
theorem stepRunsBytesAtPc : Obligations.StepRunsBytesAtPc := by
  intro s blob b0 b1 b2 i hr hblob h0 h1 h2 hi
  have hp := decodeWords_getElem? h0 h1 h2
  rw [decodeStream_eq_ok_iff.mp hblob, decodeWords_encodeProgram] at hp
  rw [step_of_instr hr hp hi, exec_eq]

/-- Settles O1, on the six words written out. -/
theorem specWordsDecode : Obligations.SpecWordsDecode := by
  unfold Obligations.SpecWordsDecode
  decide

/-- Settles O7, opcode by opcode. -/
theorem opcodeAloneSelectsInstruction : Obligations.OpcodeAloneSelectsInstruction :=
  fun _ => ⟨rfl, rfl, rfl, rfl, rfl, rfl, rfl, rfl⟩

/-- Settles O11, from where the operand check succeeds and where it fails. -/
theorem assemblerValidatesOperand : Obligations.AssemblerValidatesOperand := by
  intro t m hm
  simp only [← mnemonicOperandMax_eq]
  refine ⟨fun v h0 hmax => ?_, fun v hout => ?_, assembleElement_of_rejected hm rfl,
    assembleElement_of_checked hm (checkOperand_eq_ok_iff.mpr ⟨rfl, Nat.zero_le _⟩)⟩
  · have hlt := mnemonicOperandMax_lt m
    have hv : ((BitVec.ofNat 21 v.toNat).toNat : Int) = v := by
      rw [BitVec.toNat_ofNat]
      omega
    exact ⟨_, assembleElement_of_checked hm (checkOperand_eq_ok_iff.mpr
      ⟨congrArg HostValue.int hv.symm, by omega⟩), rfl, hv⟩
  · exact assembleElement_of_rejected hm (checkOperand_of_outside hout)

/-- Settles O19: the range is the first check of R101, and LOAD is always in range. -/
theorem operandRangeFaultsBeforeAnythingElse :
    Obligations.OperandRangeFaultsBeforeAnythingElse := by
  refine ⟨fun b s hcheck hb i hi => exec_of_firstError ?_, fun b s t pc hr h => ?_⟩
  · have hrej := (operandRejected_iff s.params b).mpr ⟨hcheck, hb⟩
    obtain rfl | rfl | rfl := hi
    · rw [firstError_loadc, if_pos hrej]
    · rw [firstError_store, if_pos hrej]
    · rw [firstError_shl, if_pos hrej]
  · rw [exec_next_iff.mp h]
    have hstatus : s.status.passesChecks := hr ▸ passesChecks_running
    exact (answerState_passesChecks (load_wellFormed b) hstatus pc).2

/-- Settles O23, by the opcode check of the step. -/
theorem illegalOpcodeFaultsWhenReached : Obligations.IllegalOpcodeFaultsWhenReached := by
  intro s p hr hp ha
  have hi := toInstr_of_illegal ha
  exact ⟨fun i => by simp [hi], step_of_unknown hr hp hi⟩

/-- Settles O47. -/
theorem operandsZeroExtendAndAddressesWrap : Obligations.OperandsZeroExtendAndAddressesWrap :=
  fun base b => ⟨toNat_zext32 b, rfl, offsetAddress_eq_mod base b⟩

end Sys2Proof.Machine

/-!
The family `40_stack_ops.md`: O24, O27, O30, O39, O40, O41, O46, O15, O16, O17, O18, O20, O21, O25,
O28. First the facts its proofs share (an instruction without an error, the word placed at the pc,
the loop of steps, how a run ends, programs that only push, the amount of a shift), then the
obligations.
-/

namespace Sys2Proof.Machine

/-! ### An instruction without an error (R101 to R105) -/

section Instruction

variable {i : Instr} {b : Operand} {s : State}

theorem exec_of_no_error (h : firstError i s = none) : exec i s = .next (effectState i s) := by
  rw [exec_eq, answerState, h]
  rfl

@[simp] theorem effectState_pc (i : Instr) (s : State) : (effectState i s).pc = s.pc + 1 := by
  cases i <;> rfl

@[simp] theorem effectState_status (i : Instr) (s : State) :
    (effectState i s).status = s.status := by
  cases i <;> rfl

theorem exec_loadc_of_room (hb : operandRejected s.params b = false) (hroom : stackFull s = false) :
    exec (.loadc b) s = .next (loadcState b s) :=
  exec_of_no_error (by simp [firstError_loadc, hb, hroom])

theorem exec_store_of_two {rest : List Word} {value base : Word}
    (hb : operandRejected s.params b = false) (hs : s.stack = rest ++ [value, base])
    (ha : offsetAddress base b < s.params.memCeiling) :
    exec (.store b) s = .next (storeState b rest value base s) := by
  rw [← effectState_store hs]
  exact exec_of_no_error (by simp [firstError_store, hb, stackBelow, top_of_two hs, hs, ha])

theorem exec_shl_of_one {rest : List Word} {x : Word} (hb : operandRejected s.params b = false)
    (hs : s.stack = rest ++ [x]) (ha : offsetAddress x b < s.params.memCeiling) :
    exec (.shl b) s = .next (shlState b rest x s) := by
  rw [← effectState_shl hs]
  exact exec_of_no_error (by simp [firstError_shl, hb, stackBelow, top_of_stack s hs, hs, ha])

theorem stackFull_of_unbounded (h : s.params.stackCapacity = none) : stackFull s = false :=
  stackFull_eq_false_iff.mpr fun c hc => by simp [h] at hc

/-- R111: the overflow check is the only source of StackOverflow. -/
theorem stackFull_of_firstError (h : firstError i s = some (.execution .stackOverflow)) :
    stackFull s = true := by
  rw [stackFull_eq_capacityReached]
  unfold firstError at h
  split at h
  · cases h
  · split at h
    · cases h
    · split at h
      · next hfull => exact (Bool.and_eq_true_iff.mp hfull).2
      · split at h
        · cases h
        · split at h <;> cases h

end Instruction

/-! ### The word placed at the pc (log 7) -/

theorem getElem?_take_append_replicate {α : Type} (l r : List α) (n : Nat) (d x : α) :
    (l.take n ++ List.replicate (n - l.length) d ++ x :: r)[n]? = some x := by
  have hlen : (l.take n ++ List.replicate (n - l.length) d).length = n := by
    rw [List.length_append, List.length_take, List.length_replicate]
    omega
  rw [List.getElem?_append_right hlen.le, hlen, Nat.sub_self, List.getElem?_cons_zero]

theorem exists_pair_of_withFetchWord {nbits w : Nat} {i : Instr} (s : State)
    (h : decodeTableWord nbits w = some i) :
    ∃ p, (s.withFetchWord nbits w).program[s.pc]? = some p ∧ p.toInstr = .ok i := by
  simp only [decodeTableWord, decodeInstr] at h
  split at h
  · next j hj =>
    cases h
    exact ⟨_, getElem?_take_append_replicate s.program _ s.pc _ _, hj⟩
  · cases h

/-! ### The loop of steps -/

section Steps

variable {s : State}

theorem steps_of_not_running (n : Nat) (h : s.status ≠ .running) : steps n s = s := by
  cases hr : s.status with
  | running => exact absurd hr h
  | halted => exact steps_of_fault n (step_of_halted hr)
  | faulted c pc => exact steps_of_fault n (step_of_faulted hr)

/-- R100, R101: inside the program and at its end a running state has a step. -/
theorem exists_step_of_running (hr : s.status = .running) (hpc : s.pc ≤ s.program.length) :
    ∃ t, step s = .next t := by
  cases hp : s.program[s.pc]? with
  | none => exact ⟨_, step_of_end hr (hpc.antisymm (List.getElem?_eq_none_iff.mp hp))⟩
  | some p =>
    cases hi : p.toInstr with
    | error e => exact ⟨_, step_of_unknown hr hp hi⟩
    | ok i => exact ⟨_, step_of_instr hr hp hi⟩

theorem steps_add (m n : Nat) (s : State) : steps (m + n) s = steps n (steps m s) := by
  induction m generalizing s with
  | zero => rw [Nat.zero_add, steps]
  | succ m ih =>
    rw [Nat.succ_add]
    cases h : step s with
    | next t => rw [steps_succ_of_next _ h, steps_succ_of_next _ h, ih]
    | fault r => rw [steps_of_fault _ h, steps_of_fault _ h, steps_of_fault _ h]
    | refused r => cases n <;> simp [steps, h]

theorem steps_succ_of_last {t : State} {n : Nat} (h : step (steps n s) = .next t) :
    steps (n + 1) s = t := by
  rw [steps_add, steps_succ_of_next 0 h, steps]

theorem steps_program (n : Nat) (s : State) : (steps n s).program = s.program :=
  steps_induction (Q := fun t => t.program = s.program)
    (fun _ _ hprog h => (step_program_params h).1.trans hprog) n rfl

end Steps

/-! ### How a run ends (R110) -/

section Run

variable {s : State}

/-- The first `n` steps all succeed, each advancing the pc by one from 0. -/
def RunsTo (s : State) (n : Nat) : Prop :=
  ∀ k ≤ n, (steps k s).status = .running ∧ (steps k s).pc = k

/-- After `n` successful steps the next one faults, and the fault names its pc. -/
def FaultsAt (s : State) (c : ErrorCause) (n : Nat) : Prop :=
  RunsTo s n ∧ (steps (n + 1) s).status = .faulted c n

theorem RunsTo.succ_or_faultsAt {n : Nat} (h : RunsTo s n) (hn : n < s.program.length) :
    RunsTo s (n + 1) ∨ ∃ c, FaultsAt s c n := by
  obtain ⟨hr, hpc⟩ := h n le_rfl
  have hprog := steps_program n s
  obtain ⟨t, ht⟩ := exists_step_of_running hr (by rw [hpc, hprog]; exact hn.le)
  have hsucc : steps (n + 1) s = t := steps_succ_of_last ht
  have hcases := step_pc_status_cases ht
  rw [hpc, hprog] at hcases
  obtain ⟨hend, -⟩ | ⟨-, -, c, hfault⟩ | ⟨-, hpc', hr'⟩ := hcases
  · exact absurd hend hn.ne
  · exact .inr ⟨c, h, hsucc ▸ hfault⟩
  · refine .inl fun k hk => ?_
    obtain hlt | rfl := Nat.lt_or_eq_of_le hk
    · exact h k (Nat.le_of_lt_succ hlt)
    · rw [hsucc]
      exact ⟨hr', hpc'⟩

theorem runsTo_or_faultsAt (hr : s.status = .running) (hpc : s.pc = 0) {n : Nat}
    (hn : n ≤ s.program.length) : RunsTo s n ∨ ∃ c k, k < n ∧ FaultsAt s c k := by
  induction n with
  | zero =>
    refine .inl fun k hk => ?_
    rw [Nat.le_zero.mp hk]
    exact ⟨hr, hpc⟩
  | succ n ih =>
    obtain hruns | ⟨c, k, hk, hfault⟩ := ih (Nat.le_of_succ_le hn)
    · obtain hruns | ⟨c, hfault⟩ := hruns.succ_or_faultsAt hn
      · exact .inl hruns
      · exact .inr ⟨c, n, Nat.lt_succ_self n, hfault⟩
    · exact .inr ⟨c, k, Nat.lt_succ_of_lt hk, hfault⟩

/-- After its last instruction a run halts, and nothing else changes. -/
theorem RunsTo.runToEnd_eq (h : RunsTo s s.program.length) :
    runToEnd s = { steps s.program.length s with status := .halted } := by
  obtain ⟨hr, hpc⟩ := h _ le_rfl
  exact steps_succ_of_last (step_of_end hr (by rw [hpc, steps_program]))

/-- A fault ends the run: the steps left over change nothing. -/
theorem FaultsAt.runToEnd_eq {c : ErrorCause} {n : Nat} (h : FaultsAt s c n)
    (hn : n < s.program.length) : runToEnd s = steps (n + 1) s := by
  have hlen : s.program.length + 1 = (n + 1) + (s.program.length - n) := by omega
  rw [runToEnd, hlen, steps_add]
  exact steps_of_not_running _ (by simp [h.2])

theorem runToEnd_not_running (hr : s.status = .running) (hpc : s.pc = 0) :
    (runToEnd s).status ≠ .running := by
  obtain hruns | ⟨c, k, hk, hfault⟩ := runsTo_or_faultsAt hr hpc le_rfl
  · simp [hruns.runToEnd_eq]
  · simp [hfault.runToEnd_eq hk, hfault.2]

theorem runResult_ne_unfinished (h : s.status ≠ .running) (range : Int × Int) :
    runResult s range ≠ .unfinished := by
  unfold runResult
  split
  · split <;> simp
  · simp
  · next hr => exact absurd hr h

end Run

/-! ### Programs that only push (R102, R103) -/

section PushOnly

variable {i : Instr} {s t : State}

/-- A well-formed LOADC or LOAD. -/
def IsPush (i : Instr) : Prop :=
  i.wellFormed = true ∧ ∃ b, i = .loadc b ∨ i = .load b

theorem firstError_of_push (hi : IsPush i) (hcap : s.params.stackCapacity = none)
    (hceiling : 2 ^ 21 ≤ s.params.memCeiling) : firstError i s = none := by
  have hroom := stackFull_of_unbounded hcap
  obtain ⟨hwf, b, rfl | rfl⟩ := hi
  · simp [firstError_loadc, operandRejected_loadc, hwf, hroom]
  · have hlt : absoluteAddress b < s.params.memCeiling := b.isLt.trans_le hceiling
    simp [firstError_load, hroom, hlt]

theorem length_effectState_of_push (hi : IsPush i) :
    (effectState i s).stack.length = s.stack.length + 1 := by
  obtain ⟨-, b, rfl | rfl⟩ := hi <;> simp [effectState, loadcState, loadState]

/-- What a run of a program that only pushes keeps, from a depth of `n` at pc 0: its conditions, no
fault, and one value on the stack per instruction passed. -/
structure PushRun (n : Nat) (s : State) : Prop where
  unbounded : s.params.stackCapacity = none
  ceiling : 2 ^ 21 ≤ s.params.memCeiling
  pushes : ∀ q ∈ s.program, ∃ i, q.toInstr = .ok i ∧ IsPush i
  noFault : ∀ c pc, s.status ≠ .faulted c pc
  depth : s.stack.length = n + s.pc

theorem PushRun.of_step {n : Nat} (h : PushRun n s) (hstep : step s = .next t) : PushRun n t := by
  obtain ⟨hr, ⟨-, rfl⟩ | ⟨p, a, hp, hi, -⟩ | ⟨p, i, hp, hi, hexec⟩⟩ := step_cases hstep
  · exact { h with noFault := by simp }
  · obtain ⟨j, hj, -⟩ := h.pushes p (List.mem_of_getElem? hp)
    cases hi.symm.trans hj
  · obtain ⟨j, hj, hpush⟩ := h.pushes p (List.mem_of_getElem? hp)
    obtain rfl : i = j := Except.ok.inj (hi.symm.trans hj)
    obtain ⟨hprog, hparams⟩ := step_program_params hstep
    rw [exec_of_no_error (firstError_of_push hpush h.unbounded h.ceiling)] at hexec
    cases hexec
    exact
      { unbounded := hparams ▸ h.unbounded
        ceiling := hparams ▸ h.ceiling
        pushes := hprog ▸ h.pushes
        noFault := by simp [hr]
        depth := by rw [length_effectState_of_push hpush, effectState_pc, h.depth, Nat.add_assoc] }

theorem PushRun.of_steps {n : Nat} (h : PushRun n s) (k : Nat) : PushRun n (steps k s) :=
  steps_induction (fun _ _ hs => hs.of_step) k h

end PushOnly

/-! ### The amount of a shift (R107) -/

theorem shiftAmount_eq_toNat_extractLsb' (m : Word) : shiftAmount m = (m.extractLsb' 0 5).toNat := by
  rw [shiftAmount_eq_mod, BitVec.extractLsb'_toNat, Nat.shiftRight_zero]

theorem toNat_shiftLeft (x m : Word) :
    (shiftLeft x m).toNat = x.toNat * 2 ^ shiftAmount m % 2 ^ 32 := by
  rw [shiftLeft, BitVec.toNat_shiftLeft, Nat.shiftLeft_eq]

/-! ### The obligations -/

/-- Settles O24: an instruction answers fault entry of its first error, or else its effect. -/
theorem firstApplicableErrorIsRaised : Obligations.FirstApplicableErrorIsRaised :=
  fun i s => ⟨fun _ h => exec_of_firstError h, fun h =>
    ⟨_, exec_of_no_error h, effectState_status i s, effectState_pc i s⟩⟩

/-- Settles O27: the placed pair is the one at the pc, and the state is running. -/
theorem stepRunsPlacedTableWord : Obligations.StepRunsPlacedTableWord := by
  intro s w i h
  obtain ⟨p, hp, hi⟩ := exists_pair_of_withFetchWord s h
  rw [step_of_instr rfl hp hi, exec_eq]

/-- Settles O30: halting and faulting leave the pc, completing advances it. -/
theorem pcAdvancesByOneOrRunEnds : Obligations.PcAdvancesByOneOrRunEnds := by
  intro s t h
  obtain ⟨-, hpc, hst⟩ | ⟨-, hpc, c, hst⟩ | ⟨hlt, hpc, hst⟩ := step_pc_status_cases h
  · exact .inr ⟨by simp [hst], hpc⟩
  · exact .inr ⟨by simp [hst], hpc⟩
  · exact .inl ⟨hst, hlt, hpc⟩

/-- Settles O39, by induction on the number of instructions passed without a fault. -/
theorem everyRunEnds : Obligations.EveryRunEnds := by
  intro s hr hpc
  obtain hruns | ⟨c, k, hk, hfault⟩ := runsTo_or_faultsAt hr hpc le_rfl
  · obtain ⟨hrun, hend⟩ := hruns _ le_rfl
    exact .inl ⟨hrun, hend, hruns.runToEnd_eq⟩
  · exact .inr ⟨c, k, hk, hfault.1, hfault.2, hfault.runToEnd_eq hk⟩

/-- Settles O40: a booted state runs from pc 0, so its run ends. -/
theorem runAlwaysAnswers : Obligations.RunAlwaysAnswers := by
  intro p r
  unfold run
  split
  · simp
  · next s hboot =>
    obtain ⟨-, ps, m, -, -, rfl⟩ := boot_ok.mp hboot
    exact runResult_ne_unfinished (runToEnd_not_running rfl rfl) _

/-- Settles O41: such a run keeps `PushRun`, which leaves halting as its only end. -/
theorem pushOnlyProgramsAreSafe : Obligations.PushOnlyProgramsAreSafe := by
  intro s hr hpc hcap hceiling hpush
  have hstart : PushRun s.stack.length s :=
    { unbounded := hcap
      ceiling := hceiling
      pushes := hpush
      noFault := by simp [hr]
      depth := by rw [hpc, Nat.add_zero] }
  obtain hruns | ⟨c, k, -, hfault⟩ := runsTo_or_faultsAt hr hpc le_rfl
  · have hdepth := (hstart.of_steps s.program.length).depth
    rw [(hruns _ le_rfl).2] at hdepth
    rw [State.safe, hruns.runToEnd_eq]
    exact ⟨by simp, rfl, hdepth⟩
  · exact absurd hfault.2 ((hstart.of_steps _).noFault c k)

/-- Settles O46: the amount is the number of the low five bits. -/
theorem shiftUsesLowFiveBits : Obligations.ShiftUsesLowFiveBits := by
  refine fun x m => ⟨shiftAmount_eq_mod m, shiftAmount_lt m, toNat_shiftLeft x m,
    fun k hk => ?_, fun m' hm => ?_⟩
  · rw [shiftLeft, BitVec.getLsbD_shiftLeft]
    by_cases hlow : k < shiftAmount m <;> simp [hlow, hk]
  · rw [shiftLeft, shiftLeft, shiftAmount_eq_toNat_extractLsb', hm,
      ← shiftAmount_eq_toNat_extractLsb']

/-- Settles O15. -/
theorem loadcPushesImmediate : Obligations.LoadcPushesImmediate :=
  fun b s hb hroom => ⟨zext32 b, toNat_zext32 b,
    exec_loadc_of_room ((operandRejected_eq_false_iff s.params b).mpr hb)
      (stackFull_eq_false_iff.mpr hroom)⟩

/-- Settles O16: memory only grows, which no read sees. -/
theorem loadPushesCell : Obligations.LoadPushesCell :=
  fun _ s ha hroom => ⟨_, exec_load_of_room (stackFull_eq_false_iff.mpr hroom) ha,
    rfl, rfl, rfl, Memory.read_grow s.mem _, Memory.len_grow s.mem _, rfl, rfl, rfl⟩

/-- Settles O17: the write changes its own cell only, and growth none. -/
theorem storeWritesOneCell : Obligations.StoreWritesOneCell := by
  rintro b rest value base s hb hs _ rfl ha
  exact ⟨_, exec_store_of_two ((operandRejected_eq_false_iff s.params b).mpr hb) hs ha,
    offsetAddress_eq_mod base b, rfl, rfl, by simp [storeState],
    fun a hne => by simp [storeState, hne], Memory.len_grow s.mem _, rfl, rfl, rfl⟩

/-- Settles O18: the result is R107's, and memory only grows. -/
theorem shlShiftsTopByCell : Obligations.ShlShiftsTopByCell := by
  rintro b rest x s hb hs _ rfl ha
  refine ⟨_, exec_shl_of_one ((operandRejected_eq_false_iff s.params b).mpr hb) hs ha,
    offsetAddress_eq_mod x b, ⟨_, rfl, ?_⟩, rfl, Memory.read_grow s.mem _, Memory.len_grow s.mem _,
    rfl, rfl, rfl⟩
  rw [toNat_shiftLeft, shiftAmount_eq_mod]

/-- Settles O20: the depth is the second check of R101. -/
theorem stackUnderflowFaults : Obligations.StackUnderflowFaults := by
  intro b s hb
  rw [← operandRejected_eq_false_iff] at hb
  refine ⟨fun hlen => exec_of_firstError ?_, fun hempty => exec_of_firstError ?_⟩
  · simp [firstError_store, hb, stackBelow, hlen]
  · simp [firstError_shl, hb, stackBelow, hempty]

/-- Settles O21: a depth equal to the capacity is full, and an unbounded stack never is. -/
theorem stackOverflowOnlyAtFiniteCapacity : Obligations.StackOverflowOnlyAtFiniteCapacity := by
  refine ⟨fun b s hcap => ?_, fun i s t pc hcap hr h hst => ?_⟩
  · have hfull : stackFull s = true := (stackFull_iff s).mpr ⟨_, hcap, le_rfl⟩
    refine ⟨fun hb => exec_of_firstError ?_, exec_of_firstError ?_⟩
    · simp [firstError_loadc, (operandRejected_eq_false_iff s.params b).mpr hb, hfull]
    · simp [firstError_load, hfull]
  · rw [exec_next_iff.mp h] at hst
    cases herr : firstError i s with
    | none => simp [answerState_status_of_no_error herr, hr] at hst
    | some c =>
      rw [answerState_status_of_firstError herr] at hst
      cases hst
      exact absurd (stackFull_of_firstError herr) (by simp [stackFull_of_unbounded hcap])

/-- Settles O25. -/
theorem stepRunsDecodedInstruction : Obligations.StepRunsDecodedInstruction :=
  fun s _ i hr hp hi => (step_of_instr hr hp hi).trans (exec_eq i s).symm

/-- Settles O28: the empty blob decodes to the empty program, at whose end the run starts. -/
theorem haltsAtEndOfProgram : Obligations.HaltsAtEndOfProgram := by
  refine ⟨fun s hr t h => hr (step_cases h).1, fun s hr hp => step_of_end hr hp,
    fun p r s hblob hboot => ?_⟩
  obtain ⟨-, ps, m, hps, hm, rfl⟩ := boot_ok.mp hboot
  rw [hblob] at hps
  cases hps
  exact ⟨rfl, rfl, hm, steps_succ_of_last (n := 0) (step_of_end rfl rfl)⟩

end Sys2Proof.Machine

/-!
The family `60_exceptions.md`: O29, O55. First the facts its proofs use (a step that faults is fault
entry, the result of a faulted run, the code table read backwards), then the obligations.
-/

namespace Sys2Proof.Machine

/-! ### A step that faults is fault entry (R133) -/

section FaultEntry

variable {s t : State} {c : ErrorCause} {pc : Nat}

/-- An instruction that does not end in fault entry leaves the status. -/
theorem exec_faultState_or_status {i : Instr} (h : exec i s = .next t) :
    (∃ c, t = faultState c s) ∨ t.status = s.status := by
  rw [exec_next_iff.mp h]
  cases herr : firstError i s with
  | none => exact .inr (answerState_status_of_no_error herr)
  | some c => exact .inl ⟨c, by rw [answerState, herr]; rfl⟩

/-- The status names the cause and the pc, so a step that faults is one fault entry: its own. -/
theorem step_faulted_eq (h : step s = .next t) (hst : t.status = .faulted c pc) :
    pc = s.pc ∧ t = faultState c s := by
  have hentry : ∃ c', t = faultState c' s := by
    obtain ⟨hr, ⟨-, rfl⟩ | ⟨p, a, -, -, hfault⟩ | ⟨p, i, -, -, hexec⟩⟩ := step_cases h
    · cases hst
    · exact ⟨_, hfault⟩
    · obtain hfault | hkept := exec_faultState_or_status hexec
      · exact hfault
      · simp [hkept, hr] at hst
  obtain ⟨c', rfl⟩ := hentry
  cases hst
  exact ⟨rfl, rfl⟩

theorem runResult_of_faulted (h : s.status = .faulted c pc) (range : Int × Int) :
    runResult s range = .error { cause := c, position := .pc pc } := by
  rw [runResult, h]

end FaultEntry

/-! ### The code table read backwards (R131) -/

/-- The cause a code stands for: R131's table from the code column. -/
def causeOfCode : Nat × Nat → Option ErrorCause
  | (1, 1) => some (.format .streamLength)
  | (1, 2) => some (.format .initMemory)
  | (1, 3) => some (.format .instructionList)
  | (1, 4) => some (.format .snapshotRange)
  | (2, 1) => some (.validation .unknownMnemonic)
  | (2, 2) => some (.validation .operandRange)
  | (3, 1) => some (.address .outOfRange)
  | (4, 1) => some (.execution .unknownOpcode)
  | (4, 2) => some (.execution .stackUnderflow)
  | (4, 3) => some (.execution .stackOverflow)
  | _ => none

theorem causeOfCode_code (c : ErrorCause) : causeOfCode c.code = some c := by
  obtain r | r | r | r := c <;> cases r <;> rfl

/-! ### The obligations -/

/-- Settles O29: the step is fault entry, and a faulted state has neither a step nor a snapshot. -/
theorem faultChangesOnlyStatus : Obligations.FaultChangesOnlyStatus := by
  intro s t c pc h hst
  obtain ⟨rfl, ht⟩ := step_faulted_eq h hst
  exact ⟨rfl, ht, fun u => by simp [step_of_faulted hst], runResult_of_faulted hst⟩

/-- Settles O55: the code gives the cause back, and a cause's first number is that of its kind. -/
theorem errorCodesAreDistinct : Obligations.ErrorCodesAreDistinct := by
  refine ⟨fun c d h => Option.some.inj ?_, fun c => ?_⟩
  · rw [← causeOfCode_code c, h, causeOfCode_code]
  · obtain r | r | r | r := c <;> cases r <;> rfl

end Sys2Proof.Machine

/-!
The family `70_reset_and_hazards.md`: O38, O50, O51, O56, O52. First the facts its proofs share
(what the entries of a description keep, the error of a bad entry, the entries of a block, each
phase of `run` and its error), then the obligations.
-/

namespace Sys2Proof.Machine

/-! ### What the entries of a description keep (R152 to R154) -/

section Entries

variable {ceiling size : Nat} {m m' : Memory} {es : List (HostValue × HostValue)}

/-- What every entry below the ceiling keeps, an accepted description keeps. -/
theorem applyEntries_induction {Q : Memory → Prop}
    (hentry : ∀ (m : Memory) (a : Nat) (w : Word), a < ceiling → Q m → Q ((m.grow a).put a w))
    (h : applyEntries ceiling m es = .ok m') (hm : Q m) : Q m' := by
  induction es generalizing m with
  | nil => cases h; exact hm
  | cons e es ih =>
    obtain ⟨a, w, -, ha, hrest⟩ := applyEntries_cons_ok.mp h
    exact ih hrest (hentry m a w ha hm)

/-- The same from the zero cells a description starts on. -/
theorem initialMemory_induction {Q : Memory → Prop} {od : Option InitMemory}
    (hentry : ∀ (m : Memory) (a : Nat) (w : Word), a < ceiling → Q m → Q ((m.grow a).put a w))
    (h : initialMemory ceiling size od = .ok m) (hzero : Q { cells := [], len := size }) : Q m := by
  cases od with
  | none => cases h; exact hzero
  | some d =>
    obtain ⟨es, -, happly⟩ := initialMemory_ok_iff.mp h
    exact applyEntries_induction hentry happly hzero

theorem initialMemory_wf {od : Option InitMemory} (h : initialMemory ceiling size od = .ok m) :
    m.wf := by
  refine initialMemory_induction (fun m a w _ hm => ?_) h ⟨.nil, by simp⟩
  exact Memory.wf_put w (Memory.wf_grow a hm) (by simp)

theorem initialMemory_len_le {od : Option InitMemory} (h : initialMemory ceiling size od = .ok m)
    (hsize : size ≤ ceiling) : m.len ≤ ceiling :=
  initialMemory_induction (Q := fun m => m.len ≤ ceiling)
    (fun _ _ _ ha hm => Memory.len_grow_le hm ha) h hsize

end Entries

/-! ### The error of a bad entry (R154) -/

section BadEntry

variable {ceiling : Nat} {x y : HostValue}

theorem exists_initAddress_of_good (h : addressGood ceiling x) :
    ∃ a, initAddress ceiling x = .ok a := by
  obtain ⟨a, rfl, h0, h1⟩ := h
  exact ⟨a.toNat, if_pos ⟨h0, h1⟩⟩

theorem exists_initValue_of_good (h : valueGood y) : ∃ w, initValue y = .ok w := by
  obtain ⟨v, rfl, h0, h1⟩ := h
  exact ⟨BitVec.ofNat 32 v.toNat, if_pos ⟨h0, h1⟩⟩

/-- A value has one error only (R154). -/
theorem initValue_error {c : ErrorCause} (h : initValue y = .error c) : c = .format .initMemory := by
  cases y with
  | notInteger => cases h; rfl
  | int v =>
    rw [initValue] at h
    split at h <;> cases h
    rfl

theorem applyEntry_of_outside (m : Memory) (hx : addressOutside ceiling x) (hy : valueGood y) :
    applyEntry ceiling m (x, y) = .error (.address .outOfRange) := by
  obtain ⟨w, hw⟩ := exists_initValue_of_good hy
  simp [applyEntry, initAddress_of_outside hx, hw]

theorem applyEntry_of_valueBad (m : Memory) (hx : addressGood ceiling x) (hy : valueBad y) :
    applyEntry ceiling m (x, y) = .error (.format .initMemory) := by
  obtain ⟨a, ha⟩ := exists_initAddress_of_good hx
  simp [applyEntry, ha, initValue_of_bad hy]

/-- The address's error, and every error of a value, is FormatError(InitMemory) (log 13). -/
theorem applyEntry_of_notInteger (m : Memory) (y : HostValue) :
    applyEntry ceiling m (.notInteger, y) = .error (.format .initMemory) := by
  cases hy : initValue y with
  | ok w => simp [applyEntry, initAddress, hy]
  | error c => simp [applyEntry, initAddress, hy, initValue_error hy]

/-- Which of the two errors is left open (log 12). -/
theorem applyEntry_of_both_bad (m : Memory) (hx : addressOutside ceiling x) (hy : valueBad y) :
    applyEntry ceiling m (x, y) = .error (.address .outOfRange) ∨
      applyEntry ceiling m (x, y) = .error (.format .initMemory) := by
  simp only [applyEntry, initAddress_of_outside hx, initValue_of_bad hy]
  cases Config.initValueCheckedFirst <;> simp

end BadEntry

theorem applyEntries_cons_of_error {ceiling : Nat} {m : Memory} {e : HostValue × HostValue}
    {c : ErrorCause} (es : List (HostValue × HostValue)) (h : applyEntry ceiling m e = .error c) :
    applyEntries ceiling m (e :: es) = .error c := by
  rw [applyEntries, h]

theorem initialMemory_of_entries_error {d : InitMemory} {c : ErrorCause} (ceiling size : Nat)
    (h : initEntries d = .error c) : initialMemory ceiling size (some d) = .error c := by
  rw [initialMemory, h]

/-- Good entries leave a memory, and the description goes on from there. -/
theorem initialMemory_of_good_prefix {ceiling : Nat} (size : Nat) {d : InitMemory}
    {before rest : List (HostValue × HostValue)} (hd : initEntries d = .ok (before ++ rest))
    (hgood : entriesGood ceiling before) :
    ∃ m, initialMemory ceiling size (some d) = applyEntries ceiling m rest := by
  obtain ⟨m, hm⟩ := applyEntries_of_good hgood { cells := [], len := size }
  refine ⟨m, ?_⟩
  simp only [initialMemory, hd, applyEntries_append, hm]
  rfl

/-! ### The entries of a block (R152) -/

section Block

variable {ceiling : Nat} {start : Int} {vs : List HostValue}

@[simp] theorem length_blockEntries (start : Int) (vs : List HostValue) :
    (blockEntries start vs).length = vs.length := by
  induction vs generalizing start with
  | nil => rfl
  | cons v vs ih => simp [blockEntries, ih]

theorem getElem?_blockEntries (start : Int) (vs : List HostValue) (i : Nat) :
    (blockEntries start vs)[i]? = vs[i]?.map fun v => (.int (start + i), v) := by
  induction vs generalizing start i with
  | nil => rfl
  | cons v vs ih =>
    cases i with
    | zero => simp [blockEntries]
    | succ i => simp [blockEntries, ih, Int.add_assoc, Int.add_comm 1]

theorem mem_blockEntries {e : HostValue × HostValue} :
    e ∈ blockEntries start vs ↔ ∃ (j : Nat) (y : HostValue), vs[j]? = some y ∧
      e = (.int (start + j), y) := by
  simp [List.mem_iff_getElem?, getElem?_blockEntries, eq_comm]

theorem blockEntries_append (start : Int) (vs ws : List HostValue) :
    blockEntries start (vs ++ ws) =
      blockEntries start vs ++ blockEntries (start + vs.length) ws := by
  induction vs generalizing start with
  | nil => simp [blockEntries]
  | cons v vs ih => simp [blockEntries, ih, Int.add_assoc, Int.add_comm 1]

/-- The pair at an index, between the pairs before it and those behind it. -/
theorem blockEntries_split {i : Nat} {y : HostValue} (h : vs[i]? = some y) :
    blockEntries start vs = blockEntries start (vs.take i) ++
      (.int (start + i), y) :: blockEntries (start + i + 1) (vs.drop (i + 1)) := by
  obtain ⟨hi, rfl⟩ := List.getElem?_eq_some_iff.mp h
  conv_lhs => rw [← List.take_append_drop i vs, List.drop_eq_getElem_cons hi, blockEntries_append,
    List.length_take_of_le hi.le, blockEntries]

theorem entriesGood_blockEntries_take {n : Nat}
    (h : ∀ (j : Nat) (y : HostValue), j < n → vs[j]? = some y →
      addressGood ceiling (.int (start + j)) ∧ valueGood y) :
    entriesGood ceiling (blockEntries start (vs.take n)) := by
  intro e he
  obtain ⟨j, y, hj, rfl⟩ := mem_blockEntries.mp he
  obtain ⟨hjn, hy⟩ : j < n ∧ vs[j]? = some y := by simpa [List.getElem?_take] using hj
  exact h j y hjn hy

theorem blockEntries_unnamed {a : Nat} (ha : (a : Int) < start ∨ start + vs.length ≤ a) :
    ∀ e ∈ blockEntries start vs, e.1 ≠ .int a := by
  intro e he
  obtain ⟨j, y, hj, rfl⟩ := mem_blockEntries.mp he
  obtain ⟨hlt, -⟩ := List.getElem?_eq_some_iff.mp hj
  simp only [ne_eq, HostValue.int.injEq]
  omega

/-- The pairs of a block name rising addresses, so each of them is the last for its cell. -/
theorem read_of_blockEntries {m m' : Memory} {i : Nat} {v : Int}
    (h : applyEntries ceiling m (blockEntries start vs) = .ok m') (hi : vs[i]? = some (.int v)) :
    ((m'.read (start + i).toNat).toNat : Int) = v := by
  obtain ⟨⟨b, hb, hnonneg, -⟩, -⟩ :=
    entriesGood_of_applyEntries_ok h _ (mem_blockEntries.mpr ⟨i, _, hi, rfl⟩)
  cases hb
  obtain ⟨a, ha⟩ := Int.eq_ofNat_of_zero_le hnonneg
  rw [blockEntries_split hi, ha] at h
  rw [ha]
  exact read_applyEntries_of_last h (blockEntries_unnamed (.inl (by omega)))

end Block

/-! ### The phases of `run` (R156) -/

section Phases

variable {p : Params} {r : RunInput} {s : State} {c : ErrorCause}

theorem boot_of_size (h : p.memCeiling < r.initMemSize) :
    boot p r = .error (.address .outOfRange) :=
  if_pos h

theorem decodeStream_of_length {blob : List Byte} (h : blob.length % 3 ≠ 0) :
    decodeStream blob = .error (.format .streamLength) :=
  if_neg h

theorem boot_of_stream (hsize : r.initMemSize ≤ p.memCeiling) (h : decodeStream r.blob = .error c) :
    boot p r = .error c := by
  rw [boot, if_neg hsize.not_gt, h]

theorem boot_of_initialMemory (hsize : r.initMemSize ≤ p.memCeiling)
    (hlen : r.blob.length % 3 = 0)
    (h : initialMemory p.memCeiling r.initMemSize r.initMemory = .error c) :
    boot p r = .error c := by
  obtain ⟨ps, hps⟩ := exists_decodeStream_ok_iff.mpr hlen
  simp only [boot, if_neg hsize.not_gt, hps, h]

theorem run_of_boot_error (h : boot p r = .error c) :
    run p r = .error { cause := c, position := .none } := by
  rw [run, h]

theorem run_of_boot_ok (h : boot p r = .ok s) :
    run p r = runResult (runToEnd s) r.snapshotRange := by
  rw [run, h]

theorem runResult_of_snapshot_error {range : Int × Int} (h : s.status = .halted)
    (hsnap : takeSnapshot s range = .error c) :
    runResult s range = .error { cause := c, position := .none } := by
  simp only [runResult, h, hsnap]

/-- The snapshot leaves the stack, so the stack of the halted state is the result's. -/
theorem runResult_of_snapshot {t : State} {range : Int × Int} {cells : List (Nat × Word)}
    (h : s.status = .halted) (hsnap : takeSnapshot s range = .ok (t, cells)) :
    runResult s range = .finished s.stack range cells := by
  have hstack : t.stack = s.stack := by rw [(takeSnapshot_ok hsnap).1]
  simp only [runResult, h, hsnap, hstack]

end Phases

/-! ### The obligations -/

/-- Settles O38: an accepted description keeps memory canonical and within its ceiling. -/
theorem bootMeetsInvariant : Obligations.BootMeetsInvariant := by
  intro p r s h
  obtain ⟨hsize, ps, m, -, hm, rfl⟩ := boot_ok.mp h
  exact
    { memWf := initialMemory_wf hm
      lenBound := initialMemory_len_le hm hsize
      pcBound := Nat.zero_le _
      stackBound := fun c _ => Nat.zero_le c
      coherent := trivial }

/-- Settles O51: the good entries leave a memory, on which the bad entry gives its error. -/
theorem initialMemoryValidation : Obligations.InitialMemoryValidation := by
  intro ceiling size d before after x y hd hgood
  obtain ⟨m, hm⟩ := initialMemory_of_good_prefix size hd hgood
  simp only [hm]
  refine ⟨fun hx hy => ?_, fun hx hy => ?_, fun hx => ?_, fun hx hy => ?_⟩
  · exact applyEntries_cons_of_error after (applyEntry_of_outside m hx hy)
  · exact applyEntries_cons_of_error after (applyEntry_of_valueBad m hx hy)
  · subst hx
    exact applyEntries_cons_of_error after (applyEntry_of_notInteger m y)
  · exact (applyEntry_of_both_bad m hx hy).imp (applyEntries_cons_of_error after)
      (applyEntries_cons_of_error after)

/-- Settles O56: the pairs of a block name rising addresses, and its first bad pair is a bad entry
behind good ones (O51). -/
theorem blockDescriptionSetsItsCells : Obligations.BlockDescriptionSetsItsCells := by
  intro ceiling size start vs
  refine ⟨fun hgood => ?_, fun i y hi hgood => ?_⟩
  · have hall := entriesGood_blockEntries_take hgood
    rw [List.take_length] at hall
    obtain ⟨m, hm⟩ := applyEntries_of_good hall { cells := [], len := size }
    exact ⟨m, hm, fun i v hi => read_of_blockEntries hm hi,
      fun a ha => read_applyEntries_of_unnamed hm (blockEntries_unnamed ha)⟩
  · obtain ⟨houtside, hbad, -, hboth⟩ := initialMemoryValidation ceiling size
      (.block (some (.int start)) vs) _ _ _ _ (congrArg Except.ok (blockEntries_split hi))
      (entriesGood_blockEntries_take hgood)
    exact ⟨houtside, hbad, hboth⟩

/-- Settles O52: each phase's error is that of `boot` or of the result, which `run` hands on. -/
theorem runPhasesInOrder : Obligations.RunPhasesInOrder := by
  intro p r
  refine ⟨fun h => run_of_boot_error (boot_of_size h),
    fun hsize h => run_of_boot_error (boot_of_stream hsize (decodeStream_of_length h)),
    fun hsize hlen c h => run_of_boot_error (boot_of_initialMemory hsize hlen h), fun s hs => ?_⟩
  rw [run_of_boot_ok hs]
  exact ⟨fun c pc h => runResult_of_faulted h r.snapshotRange,
    fun h => ⟨fun c => runResult_of_snapshot_error h, fun t cells => runResult_of_snapshot h⟩⟩

/-- Settles O50: a block's entries by index, the refused shapes by their equations, and their error
as that of the third phase of `run`. -/
theorem initialMemoryShapes : Obligations.InitialMemoryShapes := by
  refine ⟨fun start vs => ⟨blockEntries start vs, rfl, length_blockEntries start vs, ?_⟩,
    fun _ => rfl, fun _ => rfl, fun _ => rfl, rfl,
    fun ceiling size _ _ => initialMemory_of_entries_error ceiling size, ?_, fun _ _ => rfl⟩
  · intro i v h
    simp [getElem?_blockEntries, h]
  · intro p r d c hsize hlen hd h
    refine run_of_boot_error (boot_of_initialMemory hsize hlen ?_)
    rw [hd]
    exact initialMemory_of_entries_error _ _ h

end Sys2Proof.Machine
